-- ==== Sys2Proof/Word.lean ====
section
/-! DEFINITION. The words of the encoder core: bytes, 32-bit words and the Pixel (spec/10_state.md R10). -/

namespace Sys2Proof

/-- A byte, the unit of `out` (spec/00_scope.md R7). -/
abbrev Byte := BitVec 8

/-- An unsigned 32-bit word: `width`, `height`, `row`, `col` (spec/10_state.md R15, R17). -/
abbrev Word := BitVec 32

/-- A Pixel: "four 8-bit unsigned channels (r, g, b, a)"; equality is field-wise and exact
(spec/10_state.md R10). -/
structure Pixel where
  r : Byte
  g : Byte
  b : Byte
  a : Byte
deriving DecidableEq, Repr, Inhabited

end Sys2Proof
end

