-- ==== Sys2Proof/Config.lean ====
section
/-! DEFINITION. What is fixed for the machine (spec/00_scope.md R5) and the one free value. `OUT_CAPACITY`
is open and the model's buffer unbounded (R123, decision D9); the timing parameters are open and no rule
reads them (R158), so neither has a definition here. -/

namespace Sys2Proof

/-- `INIT_PREV`, the previous pixel at the start of an encode (R5, R22). -/
abbrev Config.initPrev : Pixel := ⟨0, 0, 0, 255⟩

/-- `INIT_SLOT`, every cache slot at the start of an encode (R5, R22). -/
abbrev Config.initSlot : Pixel := ⟨0, 0, 0, 0⟩

/-- `RUN_MAX`, the cap of the run-length counter (R5, R12). -/
abbrev Config.runMax : BitVec 6 := 62#6

/-- The magic, ASCII "qoif" (R51; the codes are general knowledge by spec/93_implementation_defined.md G1). -/
abbrev Config.magic : List Byte := [0x71#8, 0x6F#8, 0x69#8, 0x66#8]

/-- `COLORSPACE`, the constant last header byte (R5, R51). -/
abbrev Config.colorspace : Byte := 0x00#8

/-- The free value (log entry 3): the pixel of which a channel is taken when a DIFF or LUMA chunk is executed
by itself on a `prev` from which its differences reach no channel value. Its argument is the counter
`State.free`. It has no body, so nothing can be proved of its value. -/
opaque Config.freePixel : Nat → Pixel

end Sys2Proof
end

