-- ==== Sys2Proof/Syntax.lean ====
section
/-! DEFINITION. The one instruction type: a constructor per row of spec/opcode_table.json. The rows are
the stream record HEADER and the six chunk kinds the serializer emits (spec/30_encoding.md R51, R52), the
operation codes of the sequencer (R58), and the pseudo-form REP of the written notation (R59). Chunk
operands are the fields as they stand in the bytes, biased as R53 says. -/

namespace Sys2Proof

inductive Instr where
  /-- HEADER, the 14-byte record at offset 0 of `out` (R51, R72). -/
  | header (w h : Word) (c : Byte)
  /-- RGB, the four-byte literal (R52 format L3, R105). -/
  | rgb (r g b : Byte)
  /-- RGBA, the five-byte literal (R52 format L4, R106). -/
  | rgba (r g b a : Byte)
  /-- INDEX, the cache index (R52 format T6, R102). -/
  | index (idx : BitVec 6)
  /-- DIFF, the three biased differences `d + 2` (R52 format T222, R53, R103). -/
  | diff (fr fg fb : BitVec 2)
  /-- LUMA, `lg = dg + 32`, `lr = (dr - dg) + 8`, `lb = (db - dg) + 8` (R52 format T6N44, R53, R104). -/
  | luma (lg : BitVec 6) (lr lb : BitVec 4)
  /-- RUN, `rl` = run length minus 1 (R52 format T6, R101); 62 and 63 do not exist (R57 (a)). -/
  | run (rl : BitVec 6)
  /-- ENC_START with the operands of the start command (R71). -/
  | encStart (width height : Word) (channels : Byte)
  /-- PIX_STEP on the pixel that `PixRead(row, col)` answered (R80). -/
  | pixStep (cur : Pixel)
  /-- ENC_END, the end-of-grid flush (R74). -/
  | encEnd
  /-- NOP, the sequencer performs nothing (R58). -/
  | nop
  /-- REP n r g b a: `n` identical PIX lines (R59). -/
  | rep (n : Nat) (r g b a : Byte)
deriving DecidableEq, Repr

end Sys2Proof
end

