-- ==== Sys2Proof/WellFormed.lean ====
section
/-! DEFINITION. Which instructions exist. The operand types shut out every other illegal value (R132); the
one check left is the length of a RUN. -/

namespace Sys2Proof

/-- RUN with `rl` = 62 or 63 does not exist: those bytes are the literal tags (spec/30_encoding.md R57 (a)).
Every other term of `Instr` is well-formed, the never-produced encodings of R57 (b) to (g) included. -/
def Instr.wellFormed : Instr → Bool
  | .run rl => decide (rl.toNat ≤ 61)
  | .header .. | .rgb .. | .rgba .. | .index .. | .diff .. | .luma .. => true
  | .encStart .. | .pixStep .. | .encEnd | .nop | .rep .. => true

/-- The six chunk kinds (spec/30_encoding.md R50). -/
def Instr.isChunk : Instr → Bool
  | .rgb .. | .rgba .. | .index .. | .diff .. | .luma .. | .run .. => true
  | .header .. | .encStart .. | .pixStep .. | .encEnd | .nop | .rep .. => false

/-- The pixels of the grid a chunk stands for: one, but for RUN `rl + 1` (R50, R126 (e)). What is no chunk
stands for none. -/
def Instr.pixels : Instr → Nat
  | .rgb .. | .rgba .. | .index .. | .diff .. | .luma .. => 1
  | .run rl => rl.toNat + 1
  | .header .. | .encStart .. | .pixStep .. | .encEnd | .nop | .rep .. => 0

/-- REP is notation only and has no code of its own (spec/opcode_table.json, R59). -/
def Instr.isPseudo : Instr → Bool
  | .rep .. => true
  | .header .. | .rgb .. | .rgba .. | .index .. | .diff .. | .luma .. | .run .. => false
  | .encStart .. | .pixStep .. | .encEnd | .nop => false

end Sys2Proof
end

