-- ==== Sys2Proof/Decode.lean ====
section
/-! DEFINITION. Decoding and encoding of the three coding spaces of spec/30_encoding.md: the header record
(R51), the chunk bytes (R52 to R56) and the operation codes of the sequencer (R58). A byte sequence means
something only in its own space: the header is recognised by position (R55), a chunk by its first byte (R54),
an operation code never appears in `out` (R58). -/

namespace Sys2Proof

/-- The three coding spaces. -/
inductive Space where
  /-- The header record, at offset 0 of `out` (R51, R55). -/
  | hdr
  /-- A chunk, at any offset of `out` from 14 on (R52, R54). -/
  | chunk
  /-- An operation code of the sequencer with its operands (R58). -/
  | uop
deriving DecidableEq, Repr

/-- Why bytes are not read as an instruction. No first byte of a chunk is among the reasons: all 256 are
assigned (R54, R57). -/
inductive DecodeError where
  /-- Fewer bytes than the first byte says the record has (R55). -/
  | truncated
  /-- The header space, but the first four bytes are not the magic (R51). -/
  | badMagic
  /-- The header space, but offset 13 is not 0 (R51). -/
  | badColorspace
  /-- The operation space, but the six bits above the 2-bit code are not 0 (R58 gives the code two bits). -/
  | badOperationCode
deriving DecidableEq, Repr

/-- `be32(v)`: most significant byte at the lowest offset (spec/00_scope.md R7, spec/20_memory.md R34). -/
def be32 (v : Word) : List Byte :=
  [v.extractLsb' 24 8, v.extractLsb' 16 8, v.extractLsb' 8 8, v.extractLsb' 0 8]

/-- The word whose `be32` bytes are given. -/
def ofBe32 (b3 b2 b1 b0 : Byte) : Word := b3 ++ b2 ++ b1 ++ b0

/-- `px_data`: `{r, g, b, a}`, `r` in bits 31:24 (spec/20_memory.md R31, decision D8), so `r` first. -/
def pixelBytes (p : Pixel) : List Byte := [p.r, p.g, p.b, p.a]

/-- The byte of a 2-bit operation code (R58); the six bits above it are 0 (log entry 5). -/
def uopByte (code : BitVec 2) : Byte := 0#6 ++ code

/-! ### The encoder -/

/-- The bytes of an instruction in its space. Fields are placed as R52 and R53 say, the earlier one in the
higher bits. An operation is its code byte and then its operands (log entry 5). REP has no code: its bytes
are those of the `n` PIX_STEPs it stands for (R59). -/
def encode : Instr → List Byte
  | .header w h c => Config.magic ++ be32 w ++ be32 h ++ [c, Config.colorspace]
  | .rgb r g b => [0xFE#8, r, g, b]
  | .rgba r g b a => [0xFF#8, r, g, b, a]
  | .index idx => [(0b00#2 ++ idx : BitVec 8)]
  | .diff fr fg fb => [(0b01#2 ++ fr ++ fg ++ fb : BitVec 8)]
  | .luma lg lr lb => [(0b10#2 ++ lg : BitVec 8), (lr ++ lb : BitVec 8)]
  | .run rl => [(0b11#2 ++ rl : BitVec 8)]
  | .encStart w h c => uopByte 0b01#2 :: (be32 w ++ be32 h ++ [c])
  | .pixStep cur => uopByte 0b10#2 :: pixelBytes cur
  | .encEnd => [uopByte 0b11#2]
  | .nop => [uopByte 0b00#2]
  | .rep n r g b a => (List.replicate n (uopByte 0b10#2 :: pixelBytes ⟨r, g, b, a⟩)).flatten

/-- The space an instruction's bytes belong to. -/
def spaceOf : Instr → Space
  | .header .. => .hdr
  | .rgb .. | .rgba .. | .index .. | .diff .. | .luma .. | .run .. => .chunk
  | .encStart .. | .pixStep .. | .encEnd | .nop | .rep .. => .uop

/-! ### The decoder -/

/-- The header record (R51). -/
def decodeHeader : List Byte → Except DecodeError (Instr × List Byte)
  | q :: o :: i :: f :: w3 :: w2 :: w1 :: w0 :: h3 :: h2 :: h1 :: h0 :: c :: z :: rest =>
    if [q, o, i, f] ≠ Config.magic then .error .badMagic
    else if z ≠ Config.colorspace then .error .badColorspace
    else .ok (.header (ofBe32 w3 w2 w1 w0) (ofBe32 h3 h2 h1 h0) c, rest)
  | _ => .error .truncated

/-- A chunk: the first-byte map of R54. The 8-bit tags are tested before the 2-bit tag `11`; the bytes after
the first are data (R56). -/
def decodeChunk : List Byte → Except DecodeError (Instr × List Byte)
  | [] => .error .truncated
  | t :: rest =>
    if t = 0xFE#8 then
      match rest with
      | r :: g :: b :: rest => .ok (.rgb r g b, rest)
      | _ => .error .truncated
    else if t = 0xFF#8 then
      match rest with
      | r :: g :: b :: a :: rest => .ok (.rgba r g b a, rest)
      | _ => .error .truncated
    else if t.extractLsb' 6 2 = 0b00#2 then .ok (.index (t.extractLsb' 0 6), rest)
    else if t.extractLsb' 6 2 = 0b01#2 then
      .ok (.diff (t.extractLsb' 4 2) (t.extractLsb' 2 2) (t.extractLsb' 0 2), rest)
    else if t.extractLsb' 6 2 = 0b10#2 then
      match rest with
      | u :: rest => .ok (.luma (t.extractLsb' 0 6) (u.extractLsb' 4 4) (u.extractLsb' 0 4), rest)
      | _ => .error .truncated
    else .ok (.run (t.extractLsb' 0 6), rest)

/-- An operation code and its operands (R58, R71, R80; their layout is log entry 5). -/
def decodeUop : List Byte → Except DecodeError (Instr × List Byte)
  | [] => .error .truncated
  | t :: rest =>
    if t = uopByte 0b00#2 then .ok (.nop, rest)
    else if t = uopByte 0b01#2 then
      match rest with
      | w3 :: w2 :: w1 :: w0 :: h3 :: h2 :: h1 :: h0 :: c :: rest =>
        .ok (.encStart (ofBe32 w3 w2 w1 w0) (ofBe32 h3 h2 h1 h0) c, rest)
      | _ => .error .truncated
    else if t = uopByte 0b10#2 then
      match rest with
      | r :: g :: b :: a :: rest => .ok (.pixStep ⟨r, g, b, a⟩, rest)
      | _ => .error .truncated
    else if t = uopByte 0b11#2 then .ok (.encEnd, rest)
    else .error .badOperationCode

/-- The instruction at the head of a byte sequence, read in one of the three spaces, and the bytes after it. -/
def decode : Space → List Byte → Except DecodeError (Instr × List Byte)
  | .hdr, bs => decodeHeader bs
  | .chunk, bs => decodeChunk bs
  | .uop, bs => decodeUop bs

/-! ### Reading `out` back (R54 to R56) -/

/-- At most `fuel` chunks to the end of the bytes. -/
def parseChunksFuel : Nat → List Byte → Except DecodeError (List Instr)
  | _, [] => .ok []
  | 0, _ :: _ => .error .truncated
  | fuel + 1, b :: bs =>
    match decodeChunk (b :: bs) with
    | .ok (i, rest) =>
      match parseChunksFuel fuel rest with
      | .ok is => .ok (i :: is)
      | .error e => .error e
    | .error e => .error e

/-- The chunks of a byte sequence; every chunk takes a byte, so its length is fuel enough (R55). -/
def parseChunks (bs : List Byte) : Except DecodeError (List Instr) := parseChunksFuel bs.length bs

/-- A whole output: the header, then chunks, then nothing (R50). -/
def parseStream (bs : List Byte) : Except DecodeError (Instr × List Instr) :=
  match decodeHeader bs with
  | .ok (h, rest) =>
    match parseChunks rest with
    | .ok is => .ok (h, is)
    | .error e => .error e
  | .error e => .error e

/-! ### The opcode table's words -/

/-- The bytes of a number whose bit 0 is the least significant bit of the first byte. -/
def leBytes : Nat → Nat → List Byte
  | 0, _ => []
  | n + 1, w => BitVec.ofNat 8 w :: leBytes n (w / 256)

/-- The longest record, the header (R51). -/
abbrev maxRecordBytes : Nat := 14

/-- The bytes of a table word, the bits above `nbits` zero, up to the longest record. The table writes HEADER's
`match` with the first byte in the highest bits; a word of that order is read so, and no word is a header in both
orders (its last byte is 0). -/
def tableBytes (nbits w : Nat) : List Byte :=
  let bs := leBytes maxRecordBytes (w % 2 ^ nbits)
  if 112 ≤ nbits ∧ bs.reverse.take 4 = Config.magic then bs.reverse else bs

/-- The space of a table word (log entry 4): the table gives the operation rows a 2-bit code and the chunk rows
a first byte in different spaces, and a bare word does not say which. A word of 112 bits is the header; else a
first byte below 4 is read as an operation code, and any other as a chunk. -/
def tableSpace (nbits w : Nat) : Space :=
  if 112 ≤ nbits then .hdr
  else if w % 2 ^ nbits % 256 < 4 then .uop
  else .chunk

/-- The instruction the decoder reads from a word of spec/opcode_table.json. -/
def decodeTableWord (nbits w : Nat) : Option Instr :=
  match decode (tableSpace nbits w) (tableBytes nbits w) with
  | .ok (i, _) => some i
  | .error _ => none

end Sys2Proof
end

