-- ==== Sys2Proof/Machine/State.lean ====
section
/-! DEFINITION. The state of the encoder core and of its surroundings, as plain data, the reasons it stops, and
the state after reset (spec/10_state.md). `prev` to `col` are the registers and the output buffer of CORE;
`src` and `host` are the Pixel Source and the host (spec/00_scope.md R6, the environment), held as data so
that one step is a function of the state; `free` is the model's own. -/

namespace Sys2Proof.Machine

/-- The sequencer's phase (R17). -/
inductive Phase where
  /-- No encode since hardware reset. -/
  | idle
  /-- The header is out; `row`, `col` name the next pixel. -/
  | pixels
  /-- The end-of-grid flush is done; `out` is complete. -/
  | done
deriving DecidableEq, Repr

/-- One cell of the Pixel Source: the pixel at a (row, col) (R31). -/
abbrev PixCell := (Nat × Nat) × Pixel

/-- What happens at the ports of CORE at one step (R153, decision D4). -/
inductive HostEvent where
  /-- The reset input is asserted (R150). -/
  | rst
  /-- The start command with its three operands (R71). -/
  | start (width height : Word) (channels : Byte)
  /-- A pixel is presented at the answer port as the answer for a position (R31, R133 (b), (c)); a PIX line of
  the written notation (R59). -/
  | answer (row col : Word) (cur : Pixel)
  /-- The Sink reads `out` as a finished result (R124, R133 (e)). -/
  | take
  /-- Nothing arrives: a pixel that is asked for has not been answered yet (R73). -/
  | wait
  /-- The host does nothing, and a pixel that is asked for is answered from `src`. -/
  | go
  /-- The model's own (log entry 4), no port of the hardware: bytes of one of the coding spaces are put to the
  decoder, and the instruction they hold is run. -/
  | word (space : Space) (bytes : List Byte)
deriving DecidableEq, Repr

structure State where
  /-- The previous pixel (R11). -/
  prev : Pixel
  /-- The run-length counter, 6 bits (R12, decision D6). -/
  run : BitVec 6
  /-- The recency cache, 64 slots of one Pixel (R13, R32). -/
  cache : Vector Pixel 64
  /-- The output buffer: the byte at offset `i` is `out[i]` (R14, R33). -/
  out : List Byte
  /-- Latched at ENC_START (R15). -/
  width : Word
  /-- Latched at ENC_START (R15). -/
  height : Word
  /-- Latched at ENC_START (R15). -/
  channels : Byte
  /-- The sequencer's phase (R17). -/
  phase : Phase
  /-- Row of the next pixel (R17). -/
  row : Word
  /-- Column of the next pixel (R17). -/
  col : Word
  /-- The Pixel Source: its pixels by (row, col), rising, one entry a position (R31). A position that is not
  listed is one the source does not answer (R143). -/
  src : List PixCell
  /-- What happens at the ports at this step and the next ones, the first first; at the end of the list the host
  does nothing more. -/
  host : List HostEvent
  /-- The model's own counter of free values drawn (log entry 3). -/
  free : Nat
deriving DecidableEq, Repr

/-- The faults of the model. -/
inductive Fault where
  /-- The sequencer's `PixRead(row, col)` gets no answer, now or later: CORE is stuck in phase PIXELS (R143,
  decision D19). Raised by `step`, never by an instruction. Safe: the hardware takes no step either. -/
  | pixelSourceSilent
  /-- A `PixRead` outside the grid, which the sequencer never issues and which has no value (R31). Raised by
  `step` where the sequencer would issue it, in states that no run of the ports alone reaches (a run with a `word`
  event can, log entries 4, 12 and 17). Safe. -/
  | pixReadOutsideGrid
deriving DecidableEq, Repr

/-- The refusals of the model. -/
inductive Refusal where
  /-- Raised by an arm of `exec` whose instruction has no meaning yet. Safe. -/
  | notModelled (mnemonic : String)
  /-- ENC_START in phase PIXELS (R133 (a)): the spec gives it no meaning and has a model refuse it. Raised by
  ENC_START. Safe. -/
  | startInPixels
  /-- PIX_STEP in phase IDLE or DONE, a pixel that no `PixRead` asked for (R22, R133 (b)). Raised by PIX_STEP,
  by REP and by an answer at the port. Safe. -/
  | pixelNotRequested
  /-- An answer for another position than the one requested (R133 (c)). Raised by an answer at the port. Safe. -/
  | wrongPosition
  /-- ENC_END in phase IDLE (R22): only ENC_START is accepted there. Raised by ENC_END. Safe. -/
  | endInIdle
  /-- RUN with `rl` = 62 or 63, which does not exist (R57 (a)); no decoded instruction is one. Raised by
  RUN. Safe. -/
  | runLengthDoesNotExist
  /-- `out` read as a finished result while the phase is not DONE (R133 (e)). Raised by a take at the
  port. Safe. -/
  | resultNotReady
  /-- The bytes of a `word` event are no instruction of their space. Raised by `step`. Safe. -/
  | undecodable (why : DecodeError)
deriving DecidableEq, Repr

/-- The machine right after hardware reset (R22, R150): phase IDLE and `out` empty, as the spec says. The spec
leaves every other register unspecified; the model names zero for each (log entry 1). The surroundings hold
nothing (log entry 2). -/
def State.reset : State where
  prev := ⟨0, 0, 0, 0⟩
  run := 0
  cache := Vector.replicate 64 ⟨0, 0, 0, 0⟩
  out := []
  width := 0
  height := 0
  channels := 0
  phase := .idle
  row := 0
  col := 0
  src := []
  host := []
  free := 0

end Sys2Proof.Machine
end

