-- ==== Sys2Proof/Machine/Operands.lean ====
section
/-! DEFINITION. The values an operation computes from its operands: the hash (spec/42_chunks.md R100), the
channel differences (spec/41_pixel_step.md R84), the biased fields (spec/30_encoding.md R53) and the pixel a
chunk stands for. All arithmetic is on unbounded integers and narrowed at the end (R107). -/

namespace Sys2Proof.Machine

/-! ### The hash (R100) -/

/-- `3r + 5g + 7b + 11a`, at most 6630. -/
def hashSum (p : Pixel) : Nat := 3 * p.r.toNat + 5 * p.g.toNat + 7 * p.b.toNat + 11 * p.a.toNat

/-- `hash(p)`: the sum mod 64, which is its low six bits. -/
def pixelHash (p : Pixel) : BitVec 6 := BitVec.ofNat 6 (hashSum p)

/-! ### The differences (R84) -/

/-- `cur.c - prev.c`, exact, in [-255, 255]; no wrap-around. -/
def channelDiff (cur prev : Byte) : Int := (cur.toNat : Int) - (prev.toNat : Int)

/-- The four differences of a pixel to another one. -/
structure Diffs where
  dr : Int
  dg : Int
  db : Int
  da : Int
deriving DecidableEq, Repr

/-- `diff = current - prev` per channel. -/
def pixelDiffs (cur prev : Pixel) : Diffs where
  dr := channelDiff cur.r prev.r
  dg := channelDiff cur.g prev.g
  db := channelDiff cur.b prev.b
  da := channelDiff cur.a prev.a

/-! ### Biased fields (R53) -/

/-- A difference as a biased field of `n` bits: `d + bias`, taken after its range test passed (R107 (e)). -/
def biased (n bias : Nat) (d : Int) : BitVec n := BitVec.ofInt n (d + bias)

/-- The difference a biased field stands for. -/
def unbiased {n : Nat} (bias : Nat) (f : BitVec n) : Int := (f.toNat : Int) - bias

/-! ### The pixel a chunk stands for -/

/-- The channel that lies `d` above `c`, if there is one. -/
def channelAt (c : Byte) (d : Int) : Option Byte :=
  if 0 ≤ (c.toNat : Int) + d ∧ (c.toNat : Int) + d ≤ 255 then some (BitVec.ofInt 8 (c.toNat + d)) else none

/-- The pixel whose differences to `p` are `dr`, `dg`, `db` and whose alpha is that of `p`. A channel that would
leave [0, 255] is taken from `free` (log entry 3). -/
def pixelAt (p : Pixel) (dr dg db : Int) (free : Pixel) : Pixel where
  r := (channelAt p.r dr).getD free.r
  g := (channelAt p.g dg).getD free.g
  b := (channelAt p.b db).getD free.b
  a := p.a

/-- All three channels of `pixelAt` are stated. -/
def pixelAtStated (p : Pixel) (dr dg db : Int) : Bool :=
  (channelAt p.r dr).isSome && (channelAt p.g dg).isSome && (channelAt p.b db).isSome

/-- The position after (row, col) in row-major order, if the grid has one (R73). -/
def nextPosition (width height row col : Word) : Option (Word × Word) :=
  if col.toNat + 1 < width.toNat then some (row, col + 1)
  else if row.toNat + 1 < height.toNat then some (row + 1, 0)
  else none

end Sys2Proof.Machine
end

