-- ==== Sys2Proof/Machine/Flags.lean ====
section
/-! DEFINITION. CORE has no flags and no condition codes (spec/10_state.md R18). What other machines keep in
flags are here the predicates of the chunk selector, evaluated and consumed inside one PIX_STEP
(spec/41_pixel_step.md R82, R85); bounds are inclusive and on exact integers (R84, R107 (d)). -/

namespace Sys2Proof.Machine

/-- `x in [lo, hi]`, both bounds inclusive (spec/00_scope.md R7). -/
def inRange (lo hi x : Int) : Bool := decide (lo ≤ x) && decide (x ≤ hi)

/-- `is_repeat`: the current pixel equals `prev` on all four channels (R82). -/
def isRepeat (cur prev : Pixel) : Bool := decide (cur = prev)

/-- `hit`: the cache slot at the pixel's index holds the pixel (R85 priority 1, R102). -/
def hit (slot cur : Pixel) : Bool := decide (slot = cur)

/-- `alpha_same`: `da = 0` (R85 priority 4). -/
def alphaSame (d : Diffs) : Bool := decide (d.da = 0)

/-- `diff_ok` (R85 priority 2, R103). -/
def diffOk (d : Diffs) : Bool :=
  alphaSame d && inRange (-2) 1 d.dr && inRange (-2) 1 d.dg && inRange (-2) 1 d.db

/-- `luma_ok` (R85 priority 3, R104). -/
def lumaOk (d : Diffs) : Bool :=
  alphaSame d && inRange (-32) 31 d.dg && inRange (-8) 7 (d.dr - d.dg) && inRange (-8) 7 (d.db - d.dg)

/-- Clauses 4 to 8: the chunk of a pixel that is no repeat, the first of five whose condition holds (R85).
`slot` is the content of `cache[hash(cur)]`. -/
def selectChunk (prev slot cur : Pixel) : Instr :=
  let d := pixelDiffs cur prev
  if hit slot cur then .index (pixelHash cur)
  else if diffOk d then .diff (biased 2 2 d.dr) (biased 2 2 d.dg) (biased 2 2 d.db)
  else if lumaOk d then .luma (biased 6 32 d.dg) (biased 4 8 (d.dr - d.dg)) (biased 4 8 (d.db - d.dg))
  else if alphaSame d then .rgb cur.r cur.g cur.b
  else .rgba cur.r cur.g cur.b cur.a

end Sys2Proof.Machine
end

