-- ==== Sys2Proof/Machine/Ops.lean ====
section
/-! DEFINITION. The named operations over the three spaces and the registers (spec/20_memory.md), and the shared
operations the instructions are made of: flush, selection and update of PIX_STEP, the sequencer's advance,
ENC_START, ENC_END, reset. There is NO operation that takes an exception and none that returns from one: CORE
raises none and has no trap entry, vector, saved state or mode (spec/60_exceptions.md R130, R134, R136, R137).
What stops the sequencer is in Fetch.lean. -/

namespace Sys2Proof

/-! ### PIX, the memory of the Pixel Source (R31): pixels by (row, col) in row-major order -/

/-- Row-major order of positions. -/
def Memory.before (a b : Nat × Nat) : Bool := decide (a.1 < b.1) || (decide (a.1 = b.1) && decide (a.2 < b.2))

/-- The pixel at a position, if the source answers it. -/
def Memory.read : List Machine.PixCell → Nat × Nat → Option Pixel
  | [], _ => none
  | (k, p) :: m, a => if k = a then some p else Memory.read m a

/-- The source with one position given a pixel. CORE never does this (R30): the environment sets up its grid. -/
def Memory.write : List Machine.PixCell → Nat × Nat → Pixel → List Machine.PixCell
  | [], a, p => [(a, p)]
  | (k, q) :: m, a, p =>
    if Memory.before a k then (a, p) :: (k, q) :: m
    else if k = a then (a, p) :: m
    else (k, q) :: Memory.write m a p

/-- The canonical form: positions strictly rising in row-major order. -/
def Memory.wf : List Machine.PixCell → Bool
  | (k, _) :: (l, q) :: m => Memory.before k l && Memory.wf ((l, q) :: m)
  | [_] => true
  | [] => true

end Sys2Proof

namespace Sys2Proof.Machine

/-! ### OUT, the output buffer (R33, R120) -/

/-- `Emit(b0, b1, ...)`: the bytes are appended in the order written (R120). -/
def emit (bs : List Byte) (s : State) : State := { s with out := s.out ++ bs }

/-- The byte of `out` at an offset, if it has been emitted (R33). -/
def outRead (s : State) (off : Nat) : Option Byte := s.out[off]?

/-! ### CACHE (R32) -/

/-- `cache[i]`. -/
def cacheRead (s : State) (i : BitVec 6) : Pixel := s.cache[i.toFin]

/-- `cache[i] <- p`. -/
def cacheWrite (i : BitVec 6) (p : Pixel) (s : State) : State := { s with cache := s.cache.set i.toFin p }

/-! ### The ports (decision D4) -/

/-- The status output `done` (R134). -/
def doneOutput (s : State) : Bool := decide (s.phase = .done)

/-- The 2-bit code of the status output `phase` (decision D24). -/
def phaseCode : Phase → BitVec 2
  | .idle => 0b00#2
  | .pixels => 0b01#2
  | .done => 0b10#2

/-- The pixel request `px_req` with `px_row`, `px_col`: in phase PIXELS the position of the next pixel (R73), also one
outside the grid, which a run of the ports alone never holds (R17, R31; DESIGN CHOICE, log entry 17). -/
def pixelRequest (s : State) : Option (Word × Word) :=
  match s.phase with
  | .pixels => some (s.row, s.col)
  | .idle => none
  | .done => none

/-- What the Sink receives: `out`, all of it, when the phase is DONE (R124). -/
def result (s : State) : Option (List Byte) :=
  match s.phase with
  | .done => some s.out
  | .idle => none
  | .pixels => none

/-! ### Register writes -/

def setRun (n : BitVec 6) (s : State) : State := { s with run := n }

def setPrev (p : Pixel) (s : State) : State := { s with prev := p }

def setPhase (ph : Phase) (s : State) : State := { s with phase := ph }

def setPosition (row col : Word) (s : State) : State := { s with row := row, col := col }

/-- The latches of ENC_START (R15, R71). -/
def latch (width height : Word) (channels : Byte) (s : State) : State :=
  { s with width := width, height := height, channels := channels }

/-- The counter of free values moves on (log entry 3). -/
def drawFree (s : State) : State := { s with free := s.free + 1 }

/-- The events after the first one. -/
def setHost (es : List HostEvent) (s : State) : State := { s with host := es }

/-! ### PIX_STEP (R80) -/

/-- A flush: `Emit(0xC0 | (run - 1)); run <- 0` (R101). -/
def flushRun (s : State) : State := setRun 0 (emit (encode (.run (s.run - 1))) s)

/-- Clause 1, the cap flush (R81). -/
def capFlush (s : State) : State := if s.run = Config.runMax then flushRun s else s

/-- Clause 3, the deferred flush (R83), which is also the flush of ENC_END (R74). -/
def deferredFlush (s : State) : State := if s.run ≠ 0 then flushRun s else s

/-- `prev <- cur; cache[idx] <- cur` (R86). -/
def commit (idx : BitVec 6) (cur : Pixel) (s : State) : State := cacheWrite idx cur (setPrev cur s)

/-- Clauses 4 to 8 and the update, for a pixel that is no repeat (R85, R86): the slot is read before it is
written (R40). -/
def codePixel (cur : Pixel) (s : State) : State :=
  commit (pixelHash cur) cur (emit (encode (selectChunk s.prev (cacheRead s (pixelHash cur)) cur)) s)

/-- PIX_STEP without the sequencer's advance: the pseudocode of R80. -/
def pixelOp (cur : Pixel) (s : State) : State :=
  if isRepeat cur s.prev then setRun ((capFlush s).run + 1) (capFlush s)
  else codePixel cur (deferredFlush (capFlush s))

/-! ### The session operations -/

/-- ENC_END: the deferred RUN if there is one, then phase DONE (R74). -/
def endOp (s : State) : State := setPhase .done (deferredFlush s)

/-- The sequencer after a PIX_STEP: the next position, or ENC_END when the grid is exhausted (R73). -/
def advance (s : State) : State :=
  match nextPosition s.width s.height s.row s.col with
  | some (row, col) => setPosition row col s
  | none => endOp s

/-- EmitHeader: the 14 bytes from the latched operands (R72). -/
def emitHeader (s : State) : State := emit (encode (.header s.width s.height s.channels)) s

/-- The fresh state of an encode (R151): `prev`, the 64 slots, `run`, `row`, `col`. -/
def freshAlgorithm (s : State) : State :=
  { s with prev := Config.initPrev, cache := Vector.replicate 64 Config.initSlot, run := 0, row := 0, col := 0 }

/-- ENC_START (R71). -/
def startOp (width height : Word) (channels : Byte) (s : State) : State :=
  let s := freshAlgorithm (emitHeader { latch width height channels s with out := [] })
  if width = 0 ∨ height = 0 then endOp s else setPhase .pixels s

/-- Hardware reset (R150): the registers and `out` as in `State.reset`; the surroundings are not CORE's and keep
what they hold. -/
def hardwareReset (s : State) : State := { State.reset with src := s.src, host := s.host, free := s.free }

end Sys2Proof.Machine
end

