-- ==== Sys2Proof/Machine/Chunks.lean ====
section
/-! DEFINITION. The meanings of the six chunk kinds (spec/42_chunks.md). Each follows the pseudocode of its rule:
its bytes are emitted, and `prev` and the cache slot of the pixel it stands for are updated. Executed by itself
a chunk has only its fields, so `cur` is the pixel they stand for over `prev` and the cache (log entry 6);
inside PIX_STEP the same bytes and the same update are made from `cur` itself. -/

namespace Sys2Proof.Machine

/-- The bytes of a chunk, and the pixel it stands for becomes `prev` and goes to its own slot (R86). -/
def emitPixel (i : Instr) (cur : Pixel) (s : State) : State := commit (pixelHash cur) cur (emit (encode i) s)

/-- A chunk that gives its pixel by differences to `prev`, alpha unchanged; a channel its differences do not
reach is free (log entry 3). -/
def emitDelta (i : Instr) (dr dg db : Int) (s : State) : State :=
  if pixelAtStated s.prev dr dg db then emitPixel i (pixelAt s.prev dr dg db (Config.freePixel s.free)) s
  else drawFree (emitPixel i (pixelAt s.prev dr dg db (Config.freePixel s.free)) s)

/-- RGB (R105): the colour channels raw, alpha that of `prev`. -/
def execRgb (r g b : Byte) (s : State) : Host.Outcome State Fault Refusal :=
  .next (emitPixel (.rgb r g b) ⟨r, g, b, s.prev.a⟩ s)

/-- RGBA (R106): all four channels raw. -/
def execRgba (r g b a : Byte) (s : State) : Host.Outcome State Fault Refusal :=
  .next (emitPixel (.rgba r g b a) ⟨r, g, b, a⟩ s)

/-- INDEX (R102): the pixel is the one in slot `idx`, and the write back to that slot changes no value. -/
def execIndex (idx : BitVec 6) (s : State) : Host.Outcome State Fault Refusal :=
  .next (commit idx (cacheRead s idx) (emit (encode (.index idx)) s))

/-- DIFF (R103): `dr`, `dg`, `db` are the fields less 2. -/
def execDiff (fr fg fb : BitVec 2) (s : State) : Host.Outcome State Fault Refusal :=
  .next (emitDelta (.diff fr fg fb) (unbiased 2 fr) (unbiased 2 fg) (unbiased 2 fb) s)

/-- LUMA (R104): `dg` is `lg` less 32; `dr` and `db` are `dg` and the 4-bit fields less 8. -/
def execLuma (lg : BitVec 6) (lr lb : BitVec 4) (s : State) : Host.Outcome State Fault Refusal :=
  .next (emitDelta (.luma lg lr lb) (unbiased 32 lg + unbiased 8 lr) (unbiased 32 lg) (unbiased 32 lg + unbiased 8 lb) s)

/-- RUN (R101): its byte is emitted and `run` is 0; `prev` and the cache do not change. A length of 63 or 64 does
not exist (R57 (a)). -/
def execRun (rl : BitVec 6) (s : State) : Host.Outcome State Fault Refusal :=
  if (Instr.run rl).wellFormed then .next (setRun 0 (emit (encode (.run rl)) s))
  else .refused .runLengthDoesNotExist

end Sys2Proof.Machine
end

