-- ==== Sys2Proof/Machine/Header.lean ====
section
/-! DEFINITION. The meaning of HEADER, the stream record (spec/40_session_ops.md R72). -/

namespace Sys2Proof.Machine

/-- HEADER: its 14 bytes are emitted (R72, R51). -/
def execHeader (w h : Word) (c : Byte) (s : State) : Host.Outcome State Fault Refusal :=
  .next (emit (encode (.header w h c)) s)

end Sys2Proof.Machine
end

