-- ==== Sys2Proof/Machine/PixelStep.lean ====
section
/-! DEFINITION. The meanings of PIX_STEP (spec/41_pixel_step.md R80 with the sequencer's advance of
spec/40_session_ops.md R73) and of REP (spec/30_encoding.md R59). -/

namespace Sys2Proof.Machine

/-- PIX_STEP: the operation of R80, then the sequencer moves one position on, or ends the encode (R17, R73). In
phase IDLE and DONE no pixel was asked for (R22, R133 (b)). The position is not held against the grid (DESIGN CHOICE,
log entry 17). -/
def execPixStep (cur : Pixel) (s : State) : Host.Outcome State Fault Refusal :=
  match s.phase with
  | .pixels => .next (advance (pixelOp cur s))
  | .idle => .refused .pixelNotRequested
  | .done => .refused .pixelNotRequested

/-- REP n: `n` PIX_STEPs on the same pixel, one after the other (R59). -/
def execRep : Nat → Byte → Byte → Byte → Byte → State → Host.Outcome State Fault Refusal
  | 0, _, _, _, _, s => .next s
  | n + 1, r, g, b, a, s =>
    match execPixStep ⟨r, g, b, a⟩ s with
    | .next t => execRep n r g b a t
    | .fault f => .fault f
    | .refused q => .refused q

end Sys2Proof.Machine
end

