-- ==== Sys2Proof/Machine/Session.lean ====
section
/-! DEFINITION. The meanings of ENC_START, ENC_END and NOP (spec/40_session_ops.md, spec/30_encoding.md R58). -/

namespace Sys2Proof.Machine

/-- ENC_START (R71): accepted in phase IDLE and DONE, refused in PIXELS (R133 (a)). -/
def execEncStart (width height : Word) (channels : Byte) (s : State) : Host.Outcome State Fault Refusal :=
  match s.phase with
  | .pixels => .refused .startInPixels
  | .idle => .next (startOp width height channels s)
  | .done => .next (startOp width height channels s)

/-- ENC_END (R74), refused in phase IDLE (R22). That it is accepted in PIXELS at every position and in DONE is the
model's (log entry 7). -/
def execEncEnd (s : State) : Host.Outcome State Fault Refusal :=
  match s.phase with
  | .idle => .refused .endInIdle
  | .pixels => .next (endOp s)
  | .done => .next (endOp s)

/-- NOP: nothing happens. R58 gives it to phase IDLE and DONE; that it is accepted in PIXELS too, with the same effect,
is the model's choice (DESIGN CHOICE, log entry 16). -/
def execNop (s : State) : Host.Outcome State Fault Refusal := .next s

end Sys2Proof.Machine
end

