-- ==== Sys2Proof/Machine/Dispatch.lean ====
section
/-! DEFINITION. The dispatch: one arm per constructor of Instr. -/

namespace Sys2Proof.Machine

def exec (i : Instr) (s : State) : Host.Outcome State Fault Refusal :=
  match i with
  | .header w h c => Sys2Proof.Machine.execHeader w h c s
  | .rgb r g b => Sys2Proof.Machine.execRgb r g b s
  | .rgba r g b a => Sys2Proof.Machine.execRgba r g b a s
  | .index idx => Sys2Proof.Machine.execIndex idx s
  | .diff fr fg fb => Sys2Proof.Machine.execDiff fr fg fb s
  | .luma lg lr lb => Sys2Proof.Machine.execLuma lg lr lb s
  | .run rl => Sys2Proof.Machine.execRun rl s
  | .encStart width height channels => Sys2Proof.Machine.execEncStart width height channels s
  | .pixStep cur => Sys2Proof.Machine.execPixStep cur s
  | .encEnd => Sys2Proof.Machine.execEncEnd s
  | .nop => Sys2Proof.Machine.execNop s
  | .rep n r g b a => Sys2Proof.Machine.execRep n r g b a s

end Sys2Proof.Machine
end

