-- ==== Sys2Proof/Machine/Fetch.lean ====
section
/-! DEFINITION. Which operation comes next: a function of `phase`, `row`, `col`, `width`, `height` and of what
happens at the ports (spec/30_encoding.md R58, spec/40_session_ops.md R73). -/

namespace Sys2Proof.Machine

/-- What the next step does. -/
inductive Fetched where
  /-- Run an instruction on a state (the state less the event that has been read). -/
  | op (i : Instr) (s : State)
  /-- Hardware reset. -/
  | reset (s : State)
  /-- No step is enabled. -/
  | fault (f : Fault)
  /-- An event the spec gives no meaning to. -/
  | refused (q : Refusal)
deriving DecidableEq, Repr

/-- The position lies in the grid `[0, height) x [0, width)` (R39). -/
def inGrid (s : State) (row col : Word) : Bool :=
  decide (row.toNat < s.height.toNat) && decide (col.toNat < s.width.toNat)

/-- The sequencer's own choice: in phase PIXELS PIX_STEP on `PixRead(row, col)`, in IDLE and DONE nothing (R73).
A source that does not answer leaves CORE stuck (R143); outside the grid the step is a fault (R31, log entry 12). -/
def sequencer (s : State) : Fetched :=
  match s.phase with
  | .idle => .op .nop s
  | .done => .op .nop s
  | .pixels =>
    if inGrid s s.row s.col then
      match Memory.read s.src (s.row.toNat, s.col.toNat) with
      | some cur => .op (.pixStep cur) s
      | none => .fault .pixelSourceSilent
    else .fault .pixReadOutsideGrid

/-- A pixel at the answer port (R133 (b), (c)). There is no grid test: with (row, col) outside the grid, where R31 gives
`PixRead` no value, a presented pixel is taken as the answer all the same. That is the model's choice (DESIGN CHOICE,
log entry 17); a run of the ports alone never gets there. -/
def answered (row col : Word) (cur : Pixel) (s : State) : Fetched :=
  match pixelRequest s with
  | none => .refused .pixelNotRequested
  | some (r, c) => if row = r ∧ col = c then .op (.pixStep cur) s else .refused .wrongPosition

/-- Bytes put to the decoder (log entry 4). -/
def decoded (sp : Space) (bs : List Byte) (s : State) : Fetched :=
  match decode sp bs with
  | .ok (i, _) => .op i s
  | .error e => .refused (.undecodable e)

/-- An event at the ports (R153); `s` no longer lists it. -/
def atPorts (e : HostEvent) (s : State) : Fetched :=
  match e with
  | .rst => .reset s
  | .start width height channels => .op (.encStart width height channels) s
  | .answer row col cur => answered row col cur s
  | .take => if doneOutput s then .op .nop s else .refused .resultNotReady
  | .wait => .op .nop s
  | .go => sequencer s
  | .word sp bs => decoded sp bs s

/-- The next event if one is listed, else the sequencer's own choice. -/
def fetch (s : State) : Fetched :=
  match s.host with
  | [] => sequencer s
  | e :: es => atPorts e (setHost es s)

/-- The phase in which the sequencer may issue an instruction: PIX_STEP in PIXELS, ENC_END not in IDLE,
ENC_START not in PIXELS (R22, R73, R133); the given phase where it may. -/
def phaseToIssue (i : Option Instr) (ph : Phase) : Phase :=
  match i with
  | some (.pixStep _) => .pixels
  | some .encEnd => if ph = .idle then .pixels else ph
  | some (.encStart ..) => if ph = .pixels then .idle else ph
  | _ => ph

/-- The state in which the next step runs a word of the opcode table: its bytes are put to the decoder ahead of
every other event, in a phase that may issue it (log entry 4). -/
def placeTableWord (s : State) (nbits w : Nat) : State :=
  setPhase (phaseToIssue (decodeTableWord nbits w) s.phase)
    (setHost (.word (tableSpace nbits w) (tableBytes nbits w) :: s.host) s)

end Sys2Proof.Machine
end

