-- ==== Sys2Proof/Machine/Step.lean ====
section
/-! DEFINITION. One step: the next operation is chosen and executed as a unit (spec/20_memory.md R40). -/

namespace Sys2Proof.Machine

def step (s : State) : Host.Outcome State Fault Refusal :=
  match fetch s with
  | .op i t => exec i t
  | .reset t => .next (hardwareReset t)
  | .fault f => .fault f
  | .refused q => .refused q

def State.withFetchWord (s : State) (nbits w : Nat) : State := placeTableWord s nbits w

end Sys2Proof.Machine
end

