-- ==== Sys2Proof/Machine/Notation.lean ====
section
/-! DEFINITION. The written notation of spec/30_encoding.md R59, a line as its words: input programs (START,
PIX, END, REP) and output listings (HEADER and the chunks), operands unbiased and decimal. NOP has no line. -/

namespace Sys2Proof.Machine

/-- A word of a line. -/
inductive Tok where
  | name (s : String)
  | num (n : Int)
deriving DecidableEq, Repr

/-- An operand word of an unsigned field. -/
def numTok {n : Nat} (v : BitVec n) : Tok := .num v.toNat

/-- The line of an instruction. -/
def lineOf : Instr → List Tok
  | .header w h c => [.name "HEADER", numTok w, numTok h, numTok c]
  | .rgb r g b => [.name "RGB", numTok r, numTok g, numTok b]
  | .rgba r g b a => [.name "RGBA", numTok r, numTok g, numTok b, numTok a]
  | .index idx => [.name "INDEX", numTok idx]
  | .diff fr fg fb => [.name "DIFF", .num (unbiased 2 fr), .num (unbiased 2 fg), .num (unbiased 2 fb)]
  | .luma lg lr lb => [.name "LUMA", .num (unbiased 32 lg), .num (unbiased 8 lr), .num (unbiased 8 lb)]
  | .run rl => [.name "RUN", .num (rl.toNat + 1)]
  | .encStart w h c => [.name "START", numTok w, numTok h, numTok c]
  | .pixStep p => [.name "PIX", numTok p.r, numTok p.g, numTok p.b, numTok p.a]
  | .encEnd => [.name "END"]
  | .nop => []
  | .rep n r g b a => [.name "REP", .num n, numTok r, numTok g, numTok b, numTok a]

/-- The field of `n` bits that stores `x + bias`, where `x + bias` fits it. -/
def fieldOf (n bias : Nat) (x : Int) : Option (BitVec n) :=
  if 0 ≤ x + bias ∧ x + bias < 2 ^ n then some (BitVec.ofInt n (x + bias)) else none

/-- The instruction of a line, if its operands are in range. -/
def ofLine : List Tok → Option Instr
  | [.name m] => if m = "END" then some .encEnd else none
  | [.name m, .num x] =>
    if m = "INDEX" then do return .index (← fieldOf 6 0 x)
    else if m = "RUN" ∧ 1 ≤ x ∧ x ≤ 62 then do return .run (← fieldOf 6 0 (x - 1))
    else none
  | [.name m, .num x, .num y, .num z] =>
    if m = "HEADER" then do return .header (← fieldOf 32 0 x) (← fieldOf 32 0 y) (← fieldOf 8 0 z)
    else if m = "START" then do return .encStart (← fieldOf 32 0 x) (← fieldOf 32 0 y) (← fieldOf 8 0 z)
    else if m = "RGB" then do return .rgb (← fieldOf 8 0 x) (← fieldOf 8 0 y) (← fieldOf 8 0 z)
    else if m = "DIFF" then do return .diff (← fieldOf 2 2 x) (← fieldOf 2 2 y) (← fieldOf 2 2 z)
    else if m = "LUMA" then do return .luma (← fieldOf 6 32 x) (← fieldOf 4 8 y) (← fieldOf 4 8 z)
    else none
  | [.name m, .num x, .num y, .num z, .num u] =>
    if m = "RGBA" then do return .rgba (← fieldOf 8 0 x) (← fieldOf 8 0 y) (← fieldOf 8 0 z) (← fieldOf 8 0 u)
    else if m = "PIX" then
      do return .pixStep ⟨← fieldOf 8 0 x, ← fieldOf 8 0 y, ← fieldOf 8 0 z, ← fieldOf 8 0 u⟩
    else none
  | [.name m, .num k, .num x, .num y, .num z, .num u] =>
    if m = "REP" ∧ 0 ≤ k then
      do return .rep k.toNat (← fieldOf 8 0 x) (← fieldOf 8 0 y) (← fieldOf 8 0 z) (← fieldOf 8 0 u)
    else none
  | _ => none

/-- A program with every REP replaced by the PIX lines it stands for. -/
def expand (is : List Instr) : List Instr :=
  is.flatMap fun i =>
    match i with
    | .rep n r g b a => List.replicate n (.pixStep ⟨r, g, b, a⟩)
    | i => [i]

end Sys2Proof.Machine
end

