-- ==== Sys2Proof/Machine/Program.lean ====
section
/-! DEFINITION. Running an input program of the written notation (spec/30_encoding.md R59): each line's
instruction in turn. -/

namespace Sys2Proof.Machine

/-- The instructions one after the other, to the first stop. -/
def execAll : List Instr → State → Host.Outcome State Fault Refusal
  | [], s => .next s
  | i :: is, s =>
    match exec i s with
    | .next t => execAll is t
    | .fault f => .fault f
    | .refused q => .refused q

end Sys2Proof.Machine
end

