-- ==== Sys2Proof/Safety.lean ====
section
/-! DEFINITION. What claims speak of: the invariants of an encode (spec/10_state.md R17, R20, R21), how many
pixels `out` and `run` stand for (R19), and the whole encode written a second time, in integers and from the
rules alone (spec/40_session_ops.md R70), which the machine is held against. -/

namespace Sys2Proof

open Machine

/-! ### Positions -/

/-- The position of the next pixel in row-major order. -/
def Safety.position (s : State) : Nat := s.row.toNat * s.width.toNat + s.col.toNat

/-- The number of pixels of the grid (R17). -/
def Safety.gridSize (s : State) : Nat := s.width.toNat * s.height.toNat

/-- The position of the next pixel lies in the grid (R17). -/
def Safety.positionInGrid (s : State) : Prop := s.row.toNat < s.height.toNat ∧ s.col.toNat < s.width.toNat

/-! ### Invariants -/

/-- The event is one the ports of the hardware have: every one but the model's own `word`. -/
def Safety.isPortEvent : HostEvent → Bool
  | .word .. => false
  | .rst | .start .. | .answer .. | .take | .wait | .go => true

/-- No `word` is pending: the run is one of the hardware. -/
def Safety.portsOnly (s : State) : Prop := ∀ e ∈ s.host, Safety.isPortEvent e = true

/-- The header of the encode in hand (R72). -/
def Safety.headerOf (s : State) : List Byte := encode (.header s.width s.height s.channels)

/-- What holds between two operations of an encode (R17, R21, R74). -/
structure Safety.EncodeInv (s : State) : Prop where
  /-- R21 (a). -/
  run_le : s.run.toNat ≤ 62
  /-- R21 (b). -/
  slots : ∀ i, cacheRead s i = Config.initSlot ∨ pixelHash (cacheRead s i) = i
  /-- R21 (c). -/
  prev_cached : cacheRead s (pixelHash s.prev) = s.prev ∨
    (s.prev = Config.initPrev ∧ ∀ i, cacheRead s i = Config.initSlot)
  /-- R21 (d), (e). -/
  header : s.out.take 14 = Safety.headerOf s
  /-- R17. -/
  in_grid : s.phase = .pixels → Safety.positionInGrid s
  /-- R74. -/
  flushed : s.phase = .done → s.run = 0

/-- The invariant of the machine, in every phase. -/
structure Safety.Inv (s : State) : Prop where
  ports : Safety.portsOnly s
  /-- R150, R22: no byte is in `out` before the first ENC_START. -/
  idle : s.phase = .idle → s.out = []
  encode : s.phase ≠ .idle → Safety.EncodeInv s

/-! ### Counting pixels -/

/-- How many pixels of the grid have been stepped (R17, R73). -/
def Safety.consumed (s : State) : Nat :=
  match s.phase with
  | .idle => 0
  | .pixels => Safety.position s
  | .done => Safety.gridSize s

/-- A list of chunks that exist. -/
def Safety.chunksOk (cs : List Instr) : Prop := ∀ c ∈ cs, c.isChunk = true ∧ c.wellFormed = true

/-- After the header `out` is chunks, and they and the deferred run stand for every pixel stepped (R19, R126 (e)). -/
def Safety.accounted (s : State) : Prop :=
  ∃ cs, Safety.chunksOk cs ∧ s.out = Safety.headerOf s ++ cs.flatMap encode ∧
    (cs.map Instr.pixels).sum + s.run.toNat = Safety.consumed s

/-- A RUN that is not of the full length 62 (R57 (g)). -/
def Safety.isShortRun : Instr → Bool
  | .run rl => decide (rl.toNat < 61)
  | .rgb .. | .rgba .. | .index .. | .diff .. | .luma .. | .header .. => false
  | .encStart .. | .pixStep .. | .encEnd | .nop | .rep .. => false

/-- A RUN of any length. -/
def Safety.isRun : Instr → Bool
  | .run _ => true
  | .rgb .. | .rgba .. | .index .. | .diff .. | .luma .. | .header .. => false
  | .encStart .. | .pixStep .. | .encEnd | .nop | .rep .. => false

/-- The second chunk may stand right behind the first: no RUN behind a RUN of less than 62 (R57 (g)). -/
def Safety.mayFollow (a b : Instr) : Prop := ¬ (Safety.isShortRun a = true ∧ Safety.isRun b = true)

/-- The two are not INDEX chunks of one slot (R57 (f)). -/
def Safety.notSameIndex (a b : Instr) : Prop := ∀ idx, ¬ (a = .index idx ∧ b = .index idx)

/-- The chunks of `out` keep R57 (f) and (g): between two INDEX chunks of one slot stands a chunk that is no RUN,
and a RUN of less than 62 is not followed by a RUN. The last two clauses say what the next chunk meets. -/
def Safety.chunksApart (s : State) : Prop :=
  ∃ cs, Safety.chunksOk cs ∧ s.out = Safety.headerOf s ++ cs.flatMap encode ∧
    List.IsChain Safety.mayFollow cs ∧
    List.IsChain Safety.notSameIndex (cs.filter fun c => !Safety.isRun c) ∧
    (s.phase = .pixels → ∀ c, cs.getLast? = some c → Safety.isShortRun c = false) ∧
    (∀ idx, (cs.filter fun c => !Safety.isRun c).getLast? = some (.index idx) → cacheRead s idx = s.prev)

/-- Every alpha the encode has seen is 255, as a three-channel source supplies it (R76). -/
def Safety.opaqueOnly (s : State) : Prop :=
  s.prev.a = 255 ∧ ∀ i, cacheRead s i = Config.initSlot ∨ (cacheRead s i).a = 255

/-! ### The encode in integers, from the rules alone -/

/-- The algorithm state of R11 to R14 with the bytes as numbers. -/
structure Ref where
  prev : Pixel
  run : Nat
  slot : Fin 64 → Pixel
  out : List Nat

/-- R100. -/
def Ref.hash (p : Pixel) : Fin 64 :=
  ⟨(p.r.toNat * 3 + p.g.toNat * 5 + p.b.toNat * 7 + p.a.toNat * 11) % 64, Nat.mod_lt _ (by decide)⟩

/-- The bytes of the chunk of a pixel that is no repeat (R80 clauses 4 to 8, with the byte values of R53). -/
def Ref.chunk (prev slot cur : Pixel) : List Nat :=
  let dr : Int := cur.r.toNat - prev.r.toNat
  let dg : Int := cur.g.toNat - prev.g.toNat
  let db : Int := cur.b.toNat - prev.b.toNat
  if slot = cur then [(Ref.hash cur).val]
  else if cur.a = prev.a ∧ -2 ≤ dr ∧ dr ≤ 1 ∧ -2 ≤ dg ∧ dg ≤ 1 ∧ -2 ≤ db ∧ db ≤ 1 then
    [(64 + 16 * (dr + 2) + 4 * (dg + 2) + (db + 2)).toNat]
  else if cur.a = prev.a ∧ -32 ≤ dg ∧ dg ≤ 31 ∧ -8 ≤ dr - dg ∧ dr - dg ≤ 7 ∧ -8 ≤ db - dg ∧ db - dg ≤ 7 then
    [(128 + (dg + 32)).toNat, (16 * (dr - dg + 8) + (db - dg + 8)).toNat]
  else if cur.a = prev.a then [254, cur.r.toNat, cur.g.toNat, cur.b.toNat]
  else [255, cur.r.toNat, cur.g.toNat, cur.b.toNat, cur.a.toNat]

/-- The flush of a run that is not 0 (R101). -/
def Ref.flush (x : Ref) : Ref :=
  if x.run = 0 then x else { x with run := 0, out := x.out ++ [192 + (x.run - 1)] }

/-- One pixel (R80). -/
def Ref.pixel (x : Ref) (cur : Pixel) : Ref :=
  let x := if x.run = 62 then x.flush else x
  if cur = x.prev then { x with run := x.run + 1 }
  else
    let x := x.flush
    { x with
      prev := cur
      slot := fun i => if i = Ref.hash cur then cur else x.slot i
      out := x.out ++ Ref.chunk x.prev (x.slot (Ref.hash cur)) cur }

/-- A 32-bit number, most significant byte first (R34). -/
def Ref.be (v : Nat) : List Nat := [v / 16777216 % 256, v / 65536 % 256, v / 256 % 256, v % 256]

/-- The start of an encode (R71, R72, R151). -/
def Ref.start (width height channels : Nat) : Ref where
  prev := ⟨0, 0, 0, 255⟩
  run := 0
  slot := fun _ => ⟨0, 0, 0, 0⟩
  out := [113, 111, 105, 102] ++ Ref.be width ++ Ref.be height ++ [channels, 0]

/-- The result of an encode of pixels in row-major order (R70). -/
def Ref.encode (width height channels : Nat) (pixels : List Pixel) : List Nat :=
  (pixels.foldl Ref.pixel (Ref.start width height channels)).flush.out

/-- The pixels of a grid in row-major order (R70). -/
def Ref.rowMajor (width height : Nat) (src : Nat → Nat → Pixel) : List Pixel :=
  (List.range height).flatMap fun row => (List.range width).map fun col => src row col

/-- The algorithm state of the machine, with the bytes as numbers. -/
def Ref.of (s : State) : Ref where
  prev := s.prev
  run := s.run.toNat
  slot := fun i => s.cache[i]
  out := s.out.map BitVec.toNat

end Sys2Proof
end

