-- ==== Sys2Proof/Certificates/Slice0/Obligations.lean ====
section
/-! DEFINITION. The statements for the provers, each from the numbered rules of spec/. -/

open Sys2Proof Sys2Proof.Machine

/-! ### Encodings (spec/30_encoding.md) -/

/-- R51, R52, R58: the encoding of a well-formed instruction, whatever bytes follow it, decodes to that
instruction, with every operand at every value. REP has no code. The bytes of an operation, but for its 2-bit code, are
log entry 5. -/
def Obligations.DecodeOfEncode : Prop :=
  ∀ (i : Instr) (rest : List Byte), i.wellFormed = true → i.isPseudo = false →
    decode (spaceOf i) (encode i ++ rest) = .ok (i, rest)

/-- R51, R54, R57: bytes that decode are the encoding of what they decode to, which is well-formed and of that space.
For the operation space this is the model's byte layout (log entry 5), of which R58 gives the 2-bit codes only. -/
def Obligations.EncodeOfDecode : Prop :=
  ∀ (sp : Space) (bs rest : List Byte) (i : Instr), decode sp bs = .ok (i, rest) →
    bs = encode i ++ rest ∧ spaceOf i = sp ∧ i.wellFormed = true ∧ i.isPseudo = false

/-- R54: the first-byte map, every range of first bytes with its kind and fields; RUN gets `rl` at most 61, and the
8-bit tags are not read as RUN. -/
def Obligations.FirstByteMap : Prop :=
  ∀ (t b1 b2 b3 b4 : Byte) (rest : List Byte),
    (t.toNat ≤ 0x3F → decodeChunk (t :: b1 :: b2 :: b3 :: b4 :: rest) =
      .ok (.index (t.extractLsb' 0 6), b1 :: b2 :: b3 :: b4 :: rest)) ∧
    (0x40 ≤ t.toNat → t.toNat ≤ 0x7F → decodeChunk (t :: b1 :: b2 :: b3 :: b4 :: rest) =
      .ok (.diff (t.extractLsb' 4 2) (t.extractLsb' 2 2) (t.extractLsb' 0 2), b1 :: b2 :: b3 :: b4 :: rest)) ∧
    (0x80 ≤ t.toNat → t.toNat ≤ 0xBF → decodeChunk (t :: b1 :: b2 :: b3 :: b4 :: rest) =
      .ok (.luma (t.extractLsb' 0 6) (b1.extractLsb' 4 4) (b1.extractLsb' 0 4), b2 :: b3 :: b4 :: rest)) ∧
    (0xC0 ≤ t.toNat → t.toNat ≤ 0xFD → (t.extractLsb' 0 6).toNat ≤ 61 ∧
      decodeChunk (t :: b1 :: b2 :: b3 :: b4 :: rest) =
        .ok (.run (t.extractLsb' 0 6), b1 :: b2 :: b3 :: b4 :: rest)) ∧
    (t.toNat = 0xFE → decodeChunk (t :: b1 :: b2 :: b3 :: b4 :: rest) = .ok (.rgb b1 b2 b3, b4 :: rest)) ∧
    (t.toNat = 0xFF → decodeChunk (t :: b1 :: b2 :: b3 :: b4 :: rest) = .ok (.rgba b1 b2 b3 b4, rest))

/-- R55: the first byte alone fixes the length of a chunk, 1, 2, 4 or 5 bytes, and a chunk of which all bytes are
there is read. -/
def Obligations.ChunkLengthFromFirstByte : Prop :=
  ∀ (t : Byte) (rest : List Byte),
    let more := if t.toNat < 0x80 then 0 else if t.toNat < 0xC0 then 1 else if t.toNat < 0xFE then 0
      else if t.toNat = 0xFE then 3 else 4
    (more ≤ rest.length → ∃ i, decodeChunk (t :: rest) = .ok (i, rest.drop more)) ∧
    (rest.length < more → decodeChunk (t :: rest) = .error .truncated)

/-- R53: the byte values of the four kinds with fields, and what each field stores. -/
def Obligations.FieldAssembly : Prop :=
  (∀ idx : BitVec 6, (encode (.index idx)).map BitVec.toNat = [idx.toNat]) ∧
  (∀ fr fg fb : BitVec 2, (encode (.diff fr fg fb)).map BitVec.toNat =
    [0x40 + 16 * fr.toNat + 4 * fg.toNat + fb.toNat]) ∧
  (∀ (lg : BitVec 6) (lr lb : BitVec 4), (encode (.luma lg lr lb)).map BitVec.toNat =
    [0x80 + lg.toNat, 16 * lr.toNat + lb.toNat]) ∧
  (∀ rl : BitVec 6, (encode (.run rl)).map BitVec.toNat = [0xC0 + rl.toNat]) ∧
  (∀ r g b : Byte, encode (.rgb r g b) = [0xFE, r, g, b]) ∧
  (∀ r g b a : Byte, encode (.rgba r g b a) = [0xFF, r, g, b, a]) ∧
  (∀ d : Int, -2 ≤ d → d ≤ 1 → ((biased 2 2 d).toNat : Int) = d + 2) ∧
  (∀ dg : Int, -32 ≤ dg → dg ≤ 31 → ((biased 6 32 dg).toNat : Int) = dg + 32) ∧
  (∀ x : Int, -8 ≤ x → x ≤ 7 → ((biased 4 8 x).toNat : Int) = x + 8) ∧
  (∀ n : BitVec 6, 1 ≤ n.toNat → n.toNat ≤ 62 → (n - 1).toNat = n.toNat - 1)

/-- R51, R52, R58: words written out from the tables decode to the instruction they stand for. (In which space a bare
word is read is log entry 4, the byte of an operation code log entry 5.) -/
def Obligations.SpecWordsDecode : Prop :=
  decodeTableWord 8 0b01111001 = some (.diff 3 2 1) ∧
  decodeTableWord 16 0b1010011010101000 = some (.luma 40 10 6) ∧
  decodeTableWord 8 0b11111101 = some (.run 61) ∧
  decodeTableWord 8 0b00110101 = some (.index 53) ∧
  decodeTableWord 32 0x1E140AFE = some (.rgb 10 20 30) ∧
  decodeTableWord 40 0x80000000FF = some (.rgba 0 0 0 128) ∧
  decodeTableWord 112 0x0004010000000200000066696F71 = some (.header 2 1 4) ∧
  decodeTableWord 112 0x716F6966000000020000000104FF = none ∧
  decodeTableWord 8 0b11 = some .encEnd

/-- R50, R54 to R56: a stream of a header and chunks is read back as that header and those chunks. -/
def Obligations.StreamReadsBack : Prop :=
  ∀ (w h : Word) (c : Byte) (cs : List Instr), Safety.chunksOk cs →
    parseStream (encode (.header w h c) ++ cs.flatMap encode) = .ok (.header w h c, cs)

/-- R59: the written line of an instruction reads back as that instruction (NOP has no line). -/
def Obligations.NotationReadsBack : Prop :=
  ∀ i : Instr, i.wellFormed = true → i ≠ .nop → ofLine (lineOf i) = some i

/-- R59: a program does what it does with every REP written out as PIX lines. -/
def Obligations.RepStandsForItsLines : Prop :=
  ∀ (is : List Instr) (s : State), execAll (expand is) s = execAll is s

/-! ### Hash, differences, selector (spec/42_chunks.md, spec/41_pixel_step.md) -/

/-- R100: the hash, its bound, its reduced form, its values and collisions; one index, that of the current pixel,
serves the lookup and the update of one step. -/
def Obligations.HashRule : Prop :=
  (∀ p : Pixel, (pixelHash p).toNat = (p.r.toNat * 3 + p.g.toNat * 5 + p.b.toNat * 7 + p.a.toNat * 11) % 64 ∧
    p.r.toNat * 3 + p.g.toNat * 5 + p.b.toNat * 7 + p.a.toNat * 11 ≤ 6630 ∧
    (pixelHash p).toNat = (3 * (p.r.extractLsb' 0 6).toNat + 5 * (p.g.extractLsb' 0 6).toNat +
      7 * (p.b.extractLsb' 0 6).toNat + 11 * (p.a.extractLsb' 0 6).toNat) % 64) ∧
  (∀ (p : Pixel) (k : Byte), pixelHash ⟨p.r + 64 * k, p.g, p.b, p.a⟩ = pixelHash p) ∧
  pixelHash ⟨0, 0, 0, 0⟩ = 0 ∧ pixelHash ⟨0, 0, 0, 255⟩ = 53 ∧ pixelHash ⟨255, 255, 255, 255⟩ = 38 ∧
  pixelHash ⟨10, 20, 30, 255⟩ = 9 ∧ pixelHash ⟨1, 0, 0, 0⟩ = 3 ∧ pixelHash ⟨0, 1, 0, 0⟩ = 5 ∧
  pixelHash ⟨0, 0, 1, 0⟩ = 7 ∧ pixelHash ⟨0, 0, 0, 1⟩ = 11 ∧ pixelHash ⟨64, 0, 0, 0⟩ = 0 ∧
  (∀ (s : State) (cur : Pixel), cur ≠ s.prev →
    cacheRead (pixelOp cur s) (pixelHash cur) = cur ∧
    (∀ i, i ≠ pixelHash cur → cacheRead (pixelOp cur s) i = cacheRead s i) ∧
    (cacheRead s (pixelHash cur) = cur →
      (pixelOp cur s).out = (deferredFlush (capFlush s)).out ++ encode (.index (pixelHash cur))))

/-- R84: the differences are exact integers in [-255, 255], their own differences in [-510, 510]; alpha is unchanged
exactly when its difference is 0; a step from 255 to 0 is -255 and one from 0 to 255 is 255, and neither passes a
range test; the range tests are made on these integers, and only a value that passed its test is biased into a field. -/
def Obligations.DifferencesDoNotWrap : Prop :=
  ∀ cur prev : Pixel,
    let d := pixelDiffs cur prev
    d.dr = (cur.r.toNat : Int) - prev.r.toNat ∧ d.dg = (cur.g.toNat : Int) - prev.g.toNat ∧
    d.db = (cur.b.toNat : Int) - prev.b.toNat ∧ d.da = (cur.a.toNat : Int) - prev.a.toNat ∧
    (-255 ≤ d.dr ∧ d.dr ≤ 255) ∧ (-255 ≤ d.dg ∧ d.dg ≤ 255) ∧ (-255 ≤ d.db ∧ d.db ≤ 255) ∧
    (-255 ≤ d.da ∧ d.da ≤ 255) ∧
    (-510 ≤ d.dr - d.dg ∧ d.dr - d.dg ≤ 510) ∧ (-510 ≤ d.db - d.dg ∧ d.db - d.dg ≤ 510) ∧
    (d.da = 0 ↔ cur.a = prev.a) ∧
    (prev.r = 255 → cur.r = 0 → d.dr = -255 ∧ diffOk d = false ∧ lumaOk d = false) ∧
    (prev.r = 0 → cur.r = 255 → d.dr = 255 ∧ diffOk d = false ∧ lumaOk d = false) ∧
    (diffOk d = true ↔ d.da = 0 ∧ (-2 ≤ d.dr ∧ d.dr ≤ 1) ∧ (-2 ≤ d.dg ∧ d.dg ≤ 1) ∧ (-2 ≤ d.db ∧ d.db ≤ 1)) ∧
    (lumaOk d = true ↔ d.da = 0 ∧ (-32 ≤ d.dg ∧ d.dg ≤ 31) ∧ (-8 ≤ d.dr - d.dg ∧ d.dr - d.dg ≤ 7) ∧
      (-8 ≤ d.db - d.dg ∧ d.db - d.dg ≤ 7)) ∧
    (∀ slot fr fg fb, selectChunk prev slot cur = .diff fr fg fb → diffOk d = true ∧
      (fr.toNat : Int) = d.dr + 2 ∧ (fg.toNat : Int) = d.dg + 2 ∧ (fb.toNat : Int) = d.db + 2) ∧
    (∀ slot lg lr lb, selectChunk prev slot cur = .luma lg lr lb → lumaOk d = true ∧
      (lg.toNat : Int) = d.dg + 32 ∧ (lr.toNat : Int) = d.dr - d.dg + 8 ∧ (lb.toNat : Int) = d.db - d.dg + 8)

/-- R85: the five-way priority selector. The chunk of a pixel that is no repeat is the first of the five whose
condition holds, with its fields, and it is a shortest one among the kinds whose condition holds. -/
def Obligations.SelectorPriority : Prop :=
  ∀ (s : State) (cur : Pixel), cur ≠ s.prev →
    let dr := (cur.r.toNat : Int) - s.prev.r.toNat
    let dg := (cur.g.toNat : Int) - s.prev.g.toNat
    let db := (cur.b.toNat : Int) - s.prev.b.toNat
    ∃ chunk, (pixelOp cur s).out = (deferredFlush (capFlush s)).out ++ encode chunk ∧
      (if cacheRead s (pixelHash cur) = cur then chunk = .index (pixelHash cur)
      else if cur.a = s.prev.a ∧ (-2 ≤ dr ∧ dr ≤ 1) ∧ (-2 ≤ dg ∧ dg ≤ 1) ∧ (-2 ≤ db ∧ db ≤ 1) then
        ∃ fr fg fb, chunk = .diff fr fg fb ∧
          (fr.toNat : Int) = dr + 2 ∧ (fg.toNat : Int) = dg + 2 ∧ (fb.toNat : Int) = db + 2
      else if cur.a = s.prev.a ∧ (-32 ≤ dg ∧ dg ≤ 31) ∧ (-8 ≤ dr - dg ∧ dr - dg ≤ 7) ∧
          (-8 ≤ db - dg ∧ db - dg ≤ 7) then
        ∃ lg lr lb, chunk = .luma lg lr lb ∧
          (lg.toNat : Int) = dg + 32 ∧ (lr.toNat : Int) = dr - dg + 8 ∧ (lb.toNat : Int) = db - dg + 8
      else if cur.a = s.prev.a then chunk = .rgb cur.r cur.g cur.b
      else chunk = .rgba cur.r cur.g cur.b cur.a) ∧
      (cacheRead s (pixelHash cur) = cur → (encode chunk).length = 1) ∧
      (diffOk (pixelDiffs cur s.prev) = true → (encode chunk).length = 1) ∧
      (lumaOk (pixelDiffs cur s.prev) = true → (encode chunk).length ≤ 2) ∧
      (cur.a = s.prev.a → (encode chunk).length ≤ 4) ∧ (encode chunk).length ≤ 5

/-- R57 (b) to (e): the encodings no pixel produces. -/
def Obligations.NeverProduced : Prop :=
  ∀ prev slot cur : Pixel, cur ≠ prev →
    let c := selectChunk prev slot cur
    let d := pixelDiffs cur prev
    encode c ≠ [0x6A] ∧ encode c ≠ [0xA0, 0x88] ∧
    (∀ lg lr lb, c = .luma lg lr lb → diffOk d = false) ∧
    (∀ r g b, c = .rgb r g b → diffOk d = false ∧ lumaOk d = false) ∧
    (∀ r g b a, c = .rgba r g b a → cur.a ≠ prev.a) ∧
    (slot = cur → c = .index (pixelHash cur)) ∧
    c.isChunk = true ∧ c.wellFormed = true ∧ Safety.isRun c = false

/-! ### PIX_STEP (spec/41_pixel_step.md) -/

/-- Clause 1 of PIX_STEP (R81), on the instruction, which ends in the sequencer's advance. With `run` at 62 a RUN of 62
goes out first and the step goes on with `run` 0 on the same pixel: a repeat starts a new run of 1 and writes neither
`prev` nor the cache, another pixel is coded with no second flush. From 61 a repeat brings the counter to 62 with no
byte, and the counter rests there; the byte 0xFD stands where it would stand if it had been emitted then. All this is
before `advance`: at the last position of the grid `advance` performs ENC_END in the same step, so that the RUN in hand
goes out there too, `run` is 0 and the phase DONE. That it is the same step, and that the instruction ENC_END, which
flushes a counter of 62 as R74 says, runs at every position in PIXELS, are the model's (log entry 7); R74 and R133
shut an early ENC_END out at the ports. -/
def Obligations.CapFlush : Prop :=
  ∀ (s : State) (cur : Pixel), s.phase = .pixels →
    (s.run = 62 → cur = s.prev → exec (.pixStep cur) s =
      .next (advance { s with run := 1, out := s.out ++ [0xFD] })) ∧
    (s.run = 62 → cur ≠ s.prev → exec (.pixStep cur) s =
      .next (advance { s with
        run := 0, prev := cur, cache := s.cache.set (pixelHash cur).toFin cur
        out := s.out ++ [0xFD] ++ encode (selectChunk s.prev (cacheRead s (pixelHash cur)) cur) })) ∧
    (s.run = 61 → cur = s.prev → exec (.pixStep cur) s = .next (advance { s with run := 62 })) ∧
    (s.run = 62 → exec .encEnd s = .next { s with run := 0, phase := .done, out := s.out ++ [0xFD] }) ∧
    (s.run ≠ 62 → capFlush s = s) ∧
    (s.run = 61 → cur = s.prev → ∀ following, ∃ bytes,
      (pixelOp following (pixelOp cur s)).out = s.out ++ 0xFD :: bytes)

/-- Clause 2 of PIX_STEP (R82), on the instruction, which ends in the sequencer's advance. A repeat, on all four
channels, adds 1 to `run`, after the cap flush if there was one, and before `advance` nothing else changes: no byte for
the pixel, no `prev`, no cache slot; `run` is 1 to 62 then (`pixelOp`). At the last position of the grid `advance`
performs ENC_END in the same step, which is the model's (log entry 7): the RUN in hand goes out, `run` is 0 and the
phase DONE. -/
def Obligations.RepeatOnlyCounts : Prop :=
  ∀ (s : State) (cur : Pixel), s.phase = .pixels →
    cur.r = s.prev.r → cur.g = s.prev.g → cur.b = s.prev.b → cur.a = s.prev.a →
    (s.run ≠ 62 → exec (.pixStep cur) s = .next (advance { s with run := s.run + 1 })) ∧
    (s.run = 62 → exec (.pixStep cur) s = .next (advance { s with run := 1, out := s.out ++ [0xFD] })) ∧
    (s.run.toNat < 62 → (s.run + 1).toNat = s.run.toNat + 1) ∧
    (s.run.toNat ≤ 62 → 1 ≤ (pixelOp cur s).run.toNat ∧ (pixelOp cur s).run.toNat ≤ 62)

/-- Clause 3 of PIX_STEP (R83), on the instruction, which ends in the sequencer's advance. A pixel that differs from
`prev` in an active run first has the deferred RUN emitted, byte `0xC0 | (run - 1)`, and `run` cleared; its own chunk
follows in the same step. With no run active only the chunk goes out, and after a cap flush there is no second one. At
the last position `advance` performs ENC_END in the same step (the model's, log entry 7), which with `run` 0 emits
nothing and brings the phase to DONE. -/
def Obligations.DeferredFlush : Prop :=
  ∀ (s : State) (cur : Pixel), s.phase = .pixels → cur ≠ s.prev →
    (s.run ≠ 0 → s.run ≠ 62 → exec (.pixStep cur) s =
      .next (advance { s with
        run := 0, prev := cur, cache := s.cache.set (pixelHash cur).toFin cur
        out := s.out ++ [0xC0 ||| (s.run - 1).setWidth 8] ++
          encode (selectChunk s.prev (cacheRead s (pixelHash cur)) cur) })) ∧
    (s.run = 0 → exec (.pixStep cur) s =
      .next (advance { s with
        prev := cur, cache := s.cache.set (pixelHash cur).toFin cur
        out := s.out ++ encode (selectChunk s.prev (cacheRead s (pixelHash cur)) cur) })) ∧
    (s.run = 62 → deferredFlush (capFlush s) = capFlush s)

/-- R102 to R106: the bytes of the chunk of a pixel that is no repeat, by what selects it, as the pseudocode of each
rule writes them, and with them `prev` and the slot. A RUN that was active is flushed before it. The instruction ends in
the sequencer's advance, which at the last position performs ENC_END in the same step (the model's, log entry 7). -/
def Obligations.ChunkOfOnePixel : Prop :=
  ∀ (s : State) (cur : Pixel), s.phase = .pixels → cur ≠ s.prev →
    let idx := pixelHash cur
    let dr := (cur.r.toNat : Int) - s.prev.r.toNat
    let dg := (cur.g.toNat : Int) - s.prev.g.toNat
    let db := (cur.b.toNat : Int) - s.prev.b.toNat
    let runByte : List Byte := if s.run = 0 then [] else [0xC0 ||| (s.run - 1).setWidth 8]
    let emitted := fun bytes : List Byte => (Host.Outcome.next (advance { s with
      out := s.out ++ runByte ++ bytes, run := 0, prev := cur, cache := s.cache.set idx.toFin cur }) :
        Host.Outcome State Fault Refusal)
    let isDiff := -2 ≤ dr ∧ dr ≤ 1 ∧ -2 ≤ dg ∧ dg ≤ 1 ∧ -2 ≤ db ∧ db ≤ 1
    let isLuma := -32 ≤ dg ∧ dg ≤ 31 ∧ -8 ≤ dr - dg ∧ dr - dg ≤ 7 ∧ -8 ≤ db - dg ∧ db - dg ≤ 7
    (cacheRead s idx = cur → exec (.pixStep cur) s = emitted [BitVec.ofNat 8 idx.toNat]) ∧
    (cacheRead s idx ≠ cur → cur.a = s.prev.a → isDiff →
      exec (.pixStep cur) s = emitted [BitVec.ofInt 8 (0x40 + (dr + 2) * 16 + (dg + 2) * 4 + (db + 2))]) ∧
    (cacheRead s idx ≠ cur → cur.a = s.prev.a → ¬ isDiff → isLuma →
      exec (.pixStep cur) s =
        emitted [BitVec.ofInt 8 (0x80 + (dg + 32)), BitVec.ofInt 8 ((dr - dg + 8) * 16 + (db - dg + 8))]) ∧
    (cacheRead s idx ≠ cur → cur.a = s.prev.a → ¬ isDiff → ¬ isLuma →
      exec (.pixStep cur) s = emitted [0xFE, cur.r, cur.g, cur.b]) ∧
    (cacheRead s idx ≠ cur → cur.a ≠ s.prev.a →
      exec (.pixStep cur) s = emitted [0xFF, cur.r, cur.g, cur.b, cur.a])

/-- R86: after clauses 4 to 8 `prev` is the pixel and its slot holds it; after a repeat, with a flush by clause 1 or
without, neither is written; on a hit the cache as a whole keeps its value. -/
def Obligations.StateUpdate : Prop :=
  ∀ (s t : State) (cur : Pixel), exec (.pixStep cur) s = .next t →
    (cur ≠ s.prev → t.prev = cur ∧ cacheRead t (pixelHash cur) = cur ∧
      ∀ i, i ≠ pixelHash cur → cacheRead t i = cacheRead s i) ∧
    (cur = s.prev → t.prev = s.prev ∧ t.cache = s.cache) ∧
    (cacheRead s (pixelHash cur) = cur → t.cache = s.cache)

/-- R87: the number of bytes one PIX_STEP emits, 0 to 6 by its cases, and the pixels that `out` and `run` stand for
grow by one. The sequencer's ENC_END after the last pixel is not part of it. -/
def Obligations.BytesOfOneStep : Prop :=
  ∀ (s : State) (cur : Pixel), s.run.toNat ≤ 62 →
    ∃ cs, Safety.chunksOk cs ∧ (pixelOp cur s).out = s.out ++ cs.flatMap encode ∧
      (cs.map Instr.pixels).sum + (pixelOp cur s).run.toNat = s.run.toNat + 1 ∧
      (cur = s.prev → s.run.toNat < 62 → cs = []) ∧
      (cur = s.prev → s.run = 62 → cs.flatMap encode = [0xFD]) ∧
      (cur ≠ s.prev → (cs.flatMap encode).length = (if s.run = 0 then 0 else 1) +
        (encode (selectChunk s.prev (cacheRead s (pixelHash cur)) cur)).length) ∧
      (encode (selectChunk s.prev (cacheRead s (pixelHash cur)) cur)).length ∈ [1, 2, 4, 5] ∧
      (cs.flatMap encode).length ≤ 6 ∧
      (∀ idx, (encode (.index idx)).length = 1) ∧ (∀ fr fg fb, (encode (.diff fr fg fb)).length = 1) ∧
      (∀ lg lr lb, (encode (.luma lg lr lb)).length = 2) ∧ (∀ r g b, (encode (.rgb r g b)).length = 4) ∧
      (∀ r g b a, (encode (.rgba r g b a)).length = 5)

/-- R80 against the same step written in integers from the rules: hash, differences, byte values, cache. -/
def Obligations.PixelOpRefinesReference : Prop :=
  ∀ (s : State) (cur : Pixel), s.run.toNat ≤ 62 → Ref.of (pixelOp cur s) = (Ref.of s).pixel cur

/-- R80, R101 to R106: PIX_STEP on a pixel that is no repeat does what its chunks do one after the other, the flushed
RUN if a run is active and then the selected chunk. (What a chunk does by itself is the model's reading, log entry 6.) -/
def Obligations.PixStepIsItsChunks : Prop :=
  ∀ (s : State) (cur : Pixel), s.run.toNat ≤ 62 → cur ≠ s.prev →
    execAll ((if s.run = 0 then [] else [.run (s.run - 1)]) ++
      [selectChunk s.prev (cacheRead s (pixelHash cur)) cur]) s = .next (pixelOp cur s)

/-- R22, R133 (b): in phase IDLE and DONE a pixel is refused; in PIXELS every pixel is taken (R130, R132), at a position
outside the grid too, which is the model's choice (log entry 17). That the step includes the advance, and at the last
position ENC_END, is the model's (log entry 7). -/
def Obligations.PixStepOnlyWhenRequested : Prop :=
  ∀ (s : State) (cur : Pixel),
    (s.phase ≠ .pixels → exec (.pixStep cur) s = .refused .pixelNotRequested) ∧
    (s.phase = .pixels → exec (.pixStep cur) s = .next (advance (pixelOp cur s)))

/-- R11, R13, R15, R33: what PIX_STEP and REP leave alone: the latches, the Pixel Source, the host's events, every
byte of `out` already there, every cache slot but that of their pixel, and the whole cache and `prev` on a repeat. -/
def Obligations.PixStepFrame : Prop :=
  ∀ (s t : State) (i : Instr) (cur : Pixel),
    (i = .pixStep cur ∨ ∃ n, i = .rep n cur.r cur.g cur.b cur.a) → exec i s = .next t →
    t.width = s.width ∧ t.height = s.height ∧ t.channels = s.channels ∧ t.src = s.src ∧ t.host = s.host ∧
    t.free = s.free ∧ (∀ pos, Memory.read t.src pos = Memory.read s.src pos) ∧
    (∀ off, off < s.out.length → outRead t off = outRead s off) ∧
    (∀ idx, idx ≠ pixelHash cur → cacheRead t idx = cacheRead s idx) ∧
    (cur = s.prev → t.prev = s.prev ∧ t.cache = s.cache)

/-- R59: REP of at most as many pixels as the grid still has is that many PIX_STEPs on its pixel; of more it is
refused as a pixel nobody asked for (log entry 8); of none it does nothing in any phase. -/
def Obligations.RepIsItsSteps : Prop :=
  ∀ (s : State) (n : Nat) (cur : Pixel),
    (n = 0 → exec (.rep n cur.r cur.g cur.b cur.a) s = .next s) ∧
    (s.phase = .pixels → Safety.positionInGrid s → Safety.position s + n ≤ Safety.gridSize s →
      exec (.rep n cur.r cur.g cur.b cur.a) s = .next ((fun t => advance (pixelOp cur t))^[n] s)) ∧
    (s.phase = .pixels → Safety.positionInGrid s → Safety.gridSize s < Safety.position s + n →
      exec (.rep n cur.r cur.g cur.b cur.a) s = .refused .pixelNotRequested)

/-! ### The chunks and the header as instructions (spec/42_chunks.md, spec/40_session_ops.md R72) -/

/-- R72: HEADER emits its 14 bytes and changes nothing else. (As an instruction by itself: log entry 6.) -/
def Obligations.HeaderEmits : Prop :=
  ∀ (s : State) (w h : Word) (c : Byte), exec (.header w h c) s = .next { s with
    out := s.out ++ [0x71, 0x6F, 0x69, 0x66,
      w.extractLsb' 24 8, w.extractLsb' 16 8, w.extractLsb' 8 8, w.extractLsb' 0 8,
      h.extractLsb' 24 8, h.extractLsb' 16 8, h.extractLsb' 8 8, h.extractLsb' 0 8, c, 0x00] }

/-- R105, R106: the literals emit their raw bytes, and the pixel becomes `prev` and goes to its slot. (As
instructions by themselves, and that RGB takes alpha from `prev`: log entry 6.) -/
def Obligations.LiteralsEmit : Prop :=
  ∀ (s : State) (r g b a : Byte),
    exec (.rgb r g b) s = .next { s with
      out := s.out ++ [0xFE, r, g, b], prev := ⟨r, g, b, s.prev.a⟩
      cache := s.cache.set (pixelHash ⟨r, g, b, s.prev.a⟩).toFin ⟨r, g, b, s.prev.a⟩ } ∧
    exec (.rgba r g b a) s = .next { s with
      out := s.out ++ [0xFF, r, g, b, a], prev := ⟨r, g, b, a⟩
      cache := s.cache.set (pixelHash ⟨r, g, b, a⟩).toFin ⟨r, g, b, a⟩ }

/-- R102: INDEX emits its index as one byte, and the pixel of that slot becomes `prev`; no slot changes its value.
(That the pixel is that of the slot is log entry 6.) -/
def Obligations.IndexEmits : Prop :=
  ∀ (s : State) (idx : BitVec 6), exec (.index idx) s = .next { s with
    out := s.out ++ [idx.setWidth 8], prev := cacheRead s idx }

/-- R103, R104: DIFF and LUMA emit their bytes, and the pixel that lies their differences above `prev`, alpha
unchanged, becomes `prev` and goes to its slot (log entry 6). -/
def Obligations.DeltasEmit : Prop :=
  ∀ (s : State) (cur : Pixel), cur.a = s.prev.a →
    (∀ fr fg fb : BitVec 2,
      (cur.r.toNat : Int) - s.prev.r.toNat = fr.toNat - 2 → (cur.g.toNat : Int) - s.prev.g.toNat = fg.toNat - 2 →
      (cur.b.toNat : Int) - s.prev.b.toNat = fb.toNat - 2 →
      exec (.diff fr fg fb) s = .next { s with
        out := s.out ++ [0b01#2 ++ fr ++ fg ++ fb], prev := cur
        cache := s.cache.set (pixelHash cur).toFin cur }) ∧
    (∀ (lg : BitVec 6) (lr lb : BitVec 4),
      (cur.g.toNat : Int) - s.prev.g.toNat = lg.toNat - 32 →
      (cur.r.toNat : Int) - s.prev.r.toNat = lg.toNat - 32 + (lr.toNat - 8) →
      (cur.b.toNat : Int) - s.prev.b.toNat = lg.toNat - 32 + (lb.toNat - 8) →
      exec (.luma lg lr lb) s = .next { s with
        out := s.out ++ [0b10#2 ++ lg, lr ++ lb], prev := cur
        cache := s.cache.set (pixelHash cur).toFin cur })

/-- R103, R104 where no pixel lies the given differences above `prev` (log entry 3): DIFF and LUMA still run. Their
bytes go out, and some pixel becomes `prev` and goes to its slot; only its channels that leave [0, 255] are free,
the others and alpha are as the differences say. -/
def Obligations.DeltasOutOfRangeStillRun : Prop :=
  ∀ (s : State) (i : Instr) (dr dg db : Int),
    ((∃ fr fg fb : BitVec 2, i = .diff fr fg fb ∧ dr = fr.toNat - 2 ∧ dg = fg.toNat - 2 ∧ db = fb.toNat - 2) ∨
      (∃ (lg : BitVec 6) (lr lb : BitVec 4), i = .luma lg lr lb ∧ dg = lg.toNat - 32 ∧
        dr = lg.toNat - 32 + (lr.toNat - 8) ∧ db = lg.toNat - 32 + (lb.toNat - 8))) →
    (∀ cur : Pixel, ¬ ((cur.r.toNat : Int) = s.prev.r.toNat + dr ∧ (cur.g.toNat : Int) = s.prev.g.toNat + dg ∧
      (cur.b.toNat : Int) = s.prev.b.toNat + db)) →
    ∃ p : Pixel, exec i s = .next { s with
        out := s.out ++ encode i, prev := p, cache := s.cache.set (pixelHash p).toFin p, free := s.free + 1 } ∧
      p.a = s.prev.a ∧
      (0 ≤ s.prev.r.toNat + dr → s.prev.r.toNat + dr ≤ 255 → (p.r.toNat : Int) = s.prev.r.toNat + dr) ∧
      (0 ≤ s.prev.g.toNat + dg → s.prev.g.toNat + dg ≤ 255 → (p.g.toNat : Int) = s.prev.g.toNat + dg) ∧
      (0 ≤ s.prev.b.toNat + db → s.prev.b.toNat + db ≤ 255 → (p.b.toNat : Int) = s.prev.b.toNat + db)

/-- RUN executed by itself, which is the model's reading (log entry 6; the operand of R101 is the value of `run` at a
flush): whatever `run` held, it emits `0xC0 | rl` and clears `run`, as the pseudocode of R101 does for its operand;
`prev` and the cache do not change. A RUN of 63 or 64 does not exist and stops by name (R57 (a)). -/
def Obligations.RunEmits : Prop :=
  ∀ (s : State) (rl : BitVec 6),
    (rl.toNat ≤ 61 → exec (.run rl) s = .next { s with out := s.out ++ [0xC0 ||| rl.setWidth 8], run := 0 }) ∧
    (62 ≤ rl.toNat → exec (.run rl) s = .refused .runLengthDoesNotExist)

/-- The frame of a chunk executed by itself, which is the model's reading (log entry 6; for a DIFF or LUMA that leads
out of range, log entry 3). What it leaves alone: the sequencer's registers, the latches, the surroundings
and every byte already emitted; its own bytes stand behind them; but for RUN `run`; every slot but that of the new
`prev`; for RUN and INDEX the whole cache, and for RUN `prev`. -/
def Obligations.ChunkFrame : Prop :=
  ∀ (s t : State) (i : Instr), i.isChunk = true → exec i s = .next t →
    t.phase = s.phase ∧ t.row = s.row ∧ t.col = s.col ∧ t.width = s.width ∧ t.height = s.height ∧
    t.channels = s.channels ∧ t.src = s.src ∧ t.host = s.host ∧
    t.out = s.out ++ encode i ∧ (∀ off, off < s.out.length → outRead t off = outRead s off) ∧
    (∀ pos, Memory.read t.src pos = Memory.read s.src pos) ∧
    (Safety.isRun i = false → t.run = s.run) ∧
    (∀ idx, idx ≠ pixelHash t.prev → cacheRead t idx = cacheRead s idx) ∧
    ((Safety.isRun i = true ∨ ∃ idx, i = .index idx) → t.cache = s.cache) ∧
    (Safety.isRun i = true → t.prev = s.prev)

/-! ### The session (spec/40_session_ops.md) -/

/-- R71, R72: in phase IDLE and DONE ENC_START latches its operands, empties `out` and emits the header, makes the
algorithm state fresh and goes to PIXELS, or to DONE for an empty grid; in PIXELS it is refused. No operand value is
rejected. -/
def Obligations.EncStartMakesFreshState : Prop :=
  ∀ (s : State) (w h : Word) (c : Byte),
    (s.phase ≠ .pixels → exec (.encStart w h c) s = .next { s with
      width := w, height := h, channels := c
      out := [0x71, 0x6F, 0x69, 0x66,
        w.extractLsb' 24 8, w.extractLsb' 16 8, w.extractLsb' 8 8, w.extractLsb' 0 8,
        h.extractLsb' 24 8, h.extractLsb' 16 8, h.extractLsb' 8 8, h.extractLsb' 0 8, c, 0x00]
      prev := ⟨0, 0, 0, 255⟩, cache := Vector.replicate 64 ⟨0, 0, 0, 0⟩, run := 0, row := 0, col := 0
      phase := if w = 0 ∨ h = 0 then .done else .pixels }) ∧
    (s.phase = .pixels → exec (.encStart w h c) s = .refused .startInPixels)

/-- R23: nothing of an earlier encode is visible after ENC_START: two states with the same surroundings give the same
state. -/
def Obligations.EncStartForgets : Prop :=
  ∀ (s t : State) (w h : Word) (c : Byte), s.phase ≠ .pixels → t.phase ≠ .pixels →
    s.src = t.src → s.host = t.host → s.free = t.free → exec (.encStart w h c) s = exec (.encStart w h c) t

/-- R75: an empty grid gives the 14 header bytes only, with the dimensions given, and the encode is over. -/
def Obligations.EmptyGridIsHeaderOnly : Prop :=
  ∀ (s : State) (w h : Word) (c : Byte), s.phase ≠ .pixels → (w = 0 ∨ h = 0) →
    ∃ t, exec (.encStart w h c) s = .next t ∧ t.phase = .done ∧ result t = some (encode (.header w h c)) ∧
      t.out.length = 14 ∧ pixelRequest t = none

/-- ENC_END has the effect of R74: it emits the deferred RUN, if there is one, as one byte, clears `run` and goes to
DONE; it writes nothing else. No event of the ports issues it (R74). The model's own are that the instruction is
accepted in PIXELS at every position and in DONE, and that the sequencer never issues it as the operation of a step,
since it is performed inside the last PIX_STEP or an empty ENC_START (log entry 7). Its refusal in IDLE is that of
R22 (log entry 11). -/
def Obligations.EncEndFlushes : Prop :=
  (∀ s : State, s.phase ≠ .idle → exec .encEnd s = .next { s with
    out := if s.run = 0 then s.out else s.out ++ [0xC0 ||| (s.run - 1).setWidth 8], run := 0, phase := .done }) ∧
  (∀ s : State, s.phase = .idle → exec .encEnd s = .refused .endInIdle) ∧
  (∀ (s t : State) (e : HostEvent), Safety.isPortEvent e = true → atPorts e s ≠ .op .encEnd t) ∧
  (∀ s t : State, sequencer s ≠ .op .encEnd t)

/-- R11, R13, R15, R33, R72, R74: what HEADER, ENC_START, ENC_END and NOP leave alone: the surroundings; but for
ENC_START every other register and every byte of `out` already there; for HEADER and NOP `run` and the phase too.
(HEADER by itself is log entry 6, ENC_END by itself log entry 7, NOP in PIXELS log entry 16.) -/
def Obligations.SessionFrame : Prop :=
  ∀ (s t : State) (i : Instr),
    ((∃ w h c, i = .header w h c) ∨ (∃ w h c, i = .encStart w h c) ∨ i = .encEnd ∨ i = .nop) → exec i s = .next t →
    t.src = s.src ∧ t.host = s.host ∧ t.free = s.free ∧
    (∀ pos, Memory.read t.src pos = Memory.read s.src pos) ∧
    ((∀ w h c, i ≠ .encStart w h c) →
      t.prev = s.prev ∧ t.cache = s.cache ∧ t.width = s.width ∧ t.height = s.height ∧ t.channels = s.channels ∧
      t.row = s.row ∧ t.col = s.col ∧ ∀ off, off < s.out.length → outRead t off = outRead s off) ∧
    (((∃ w h c, i = .header w h c) ∨ i = .nop) → t.run = s.run ∧ t.phase = s.phase)

/-- NOP changes nothing: in IDLE and DONE by R58; in PIXELS, where R58 does not give it, by the model's choice (log
entry 16), which a wait for the source's answer uses (R73, log entry 10). -/
def Obligations.NopChangesNothing : Prop := ∀ s : State, exec .nop s = .next s

/-- R73: in phase PIXELS the next operation is PIX_STEP on the pixel of (row, col), and CORE is stuck while the source
has none; after it the position moves on in row-major order, and ENC_END follows the last one at once, in the same
step (the model's, log entry 7; being stuck is a fault, log entry 12). In IDLE and DONE nothing is performed. -/
def Obligations.SequencerIsRowMajor : Prop :=
  (∀ s : State, s.host = [] → s.phase ≠ .pixels → step s = .next s) ∧
  (∀ (s : State) (cur : Pixel), s.host = [] → s.phase = .pixels → Safety.positionInGrid s →
    Memory.read s.src (s.row.toNat, s.col.toNat) = some cur →
    step s = exec (.pixStep cur) s ∧ step s = .next (advance (pixelOp cur s))) ∧
  (∀ s : State, s.host = [] → s.phase = .pixels → Safety.positionInGrid s →
    Memory.read s.src (s.row.toNat, s.col.toNat) = none → step s = .fault .pixelSourceSilent) ∧
  (∀ s : State, s.col.toNat + 1 < s.width.toNat →
    advance s = { s with col := s.col + 1 } ∧ (s.col + 1).toNat = s.col.toNat + 1) ∧
  (∀ s : State, ¬ s.col.toNat + 1 < s.width.toNat → s.row.toNat + 1 < s.height.toNat →
    advance s = { s with col := 0, row := s.row + 1 } ∧ (s.row + 1).toNat = s.row.toNat + 1) ∧
  (∀ s : State, ¬ s.col.toNat + 1 < s.width.toNat → ¬ s.row.toNat + 1 < s.height.toNat →
    advance s = endOp s) ∧
  (∀ s : State, Safety.positionInGrid s → Safety.position s + 1 < Safety.gridSize s →
    (advance s).phase = s.phase ∧ Safety.positionInGrid (advance s) ∧
    Safety.position (advance s) = Safety.position s + 1) ∧
  (∀ s : State, Safety.positionInGrid s → Safety.position s + 1 = Safety.gridSize s → advance s = endOp s)

/-! ### The machine -/

/-- A step runs the instruction that the bytes at its decoder hold, and a start command runs ENC_START with its
operands; nothing is added around exec but that the event is taken from the list. (The `word` event is the model's
own, log entry 4.) -/
def Obligations.StepRunsTheInstruction : Prop :=
  (∀ (s : State) (sp : Space) (bs rest : List Byte) (es : List HostEvent) (i : Instr),
    s.host = .word sp bs :: es → decode sp bs = .ok (i, rest) → step s = exec i { s with host := es }) ∧
  (∀ (s : State) (w h : Word) (c : Byte) (es : List HostEvent),
    s.host = .start w h c :: es → step s = exec (.encStart w h c) { s with host := es })

/-- A table word that is placed is run by the next step, in some phase, on a state else unchanged (log entry 4). -/
def Obligations.PlacedWordIsRun : Prop :=
  ∀ (s : State) (nbits w : Nat) (i : Instr), decodeTableWord nbits w = some i →
    ∃ ph, step (s.withFetchWord nbits w) = exec i { s with phase := ph } ∧
      (ph = s.phase ∨ (∃ cur, i = .pixStep cur) ∨ i = .encEnd ∨ ∃ a b c, i = .encStart a b c)

/-- R124, R133 (b), (c), (e), R153: the events at the ports. An answer is taken exactly for the position requested (at
one outside the grid too, which is the model's choice, log entry 17); the result is taken exactly in phase DONE; a
wait changes nothing. -/
def Obligations.PortEvents : Prop :=
  ∀ (s : State) (es : List HostEvent),
    (∀ row col cur, s.host = .answer row col cur :: es →
      (s.phase ≠ .pixels → step s = .refused .pixelNotRequested) ∧
      (s.phase = .pixels → (row = s.row ∧ col = s.col) → step s = exec (.pixStep cur) { s with host := es }) ∧
      (s.phase = .pixels → ¬ (row = s.row ∧ col = s.col) → step s = .refused .wrongPosition)) ∧
    (s.host = .take :: es →
      (s.phase = .done → result s = some s.out ∧ step s = .next { s with host := es }) ∧
      (s.phase ≠ .done → result s = none ∧ step s = .refused .resultNotReady)) ∧
    (s.host = .wait :: es → step s = .next { s with host := es })

/-- R150: hardware reset, in any state: phase IDLE and `out` empty, nothing for the Sink, and nothing happens until a
start command; the surroundings are not changed. The registers that R150 leaves unspecified (log entry 1) are not
spoken of. -/
def Obligations.HardwareReset : Prop :=
  ∀ (s : State) (es : List HostEvent), s.host = .rst :: es →
    ∃ t, step s = .next t ∧ t.phase = .idle ∧ t.out = [] ∧ t.src = s.src ∧ t.host = es ∧
      result t = none ∧ pixelRequest t = none ∧ (es = [] → step t = .next t)

/-- R22, R150: the state after reset: phase IDLE, `out` empty, the memory of the Pixel Source in its canonical form,
and the invariant of the machine. -/
def Obligations.ResetState : Prop :=
  State.reset.phase = .idle ∧ State.reset.out = [] ∧ doneOutput State.reset = false ∧
  Memory.wf State.reset.src = true ∧ Safety.Inv State.reset

/-- R124: in phase DONE `out` stays readable and unchanged, and the phase DONE, until an ENC_START or a reset. -/
def Obligations.DoneKeepsResult : Prop :=
  ∀ s t : State, Safety.portsOnly s → s.phase = .done →
    (∀ w h c es, s.host ≠ .start w h c :: es) → (∀ es, s.host ≠ .rst :: es) → step s = .next t →
    t.phase = .done ∧ t.out = s.out ∧ result t = result s ∧ doneOutput t = true

/-- R120: an emitted byte stands behind all others, several bytes are emitted one after the other, and whatever is
executed, `out` changes in no other way, but for ENC_START, which empties it first. -/
def Obligations.OutOnlyGrows : Prop :=
  (∀ (s : State) (b : Byte), emit [b] s = { s with out := s.out ++ [b] } ∧
    (emit [b] s).out[s.out.length]? = some b ∧ (emit [b] s).out.length = s.out.length + 1) ∧
  (∀ (s : State) (b : Byte) (bs : List Byte), emit (b :: bs) s = emit bs (emit [b] s)) ∧
  ∀ (s t : State) (i : Instr), exec i s = .next t →
    (∃ w h c, i = .encStart w h c ∧ t.out = encode (.header w h c)) ∨ ∃ bs, t.out = s.out ++ bs

/-- R15, R30, R43: only ENC_START writes the latches, and no instruction writes the Pixel Source. -/
def Obligations.LatchesAndSourceHeld : Prop :=
  ∀ (s t : State) (i : Instr), exec i s = .next t →
    t.src = s.src ∧ t.host = s.host ∧
    ((∃ w h c, i = .encStart w h c) ∨ (t.width = s.width ∧ t.height = s.height ∧ t.channels = s.channels))

/-- R130: no instruction raises an exception or faults; one is refused only where R22, R133 or R57 (a) say so (log
entry 11), REP where one of its steps is (log entry 8). -/
def Obligations.NoExceptions : Prop :=
  ∀ (s : State) (i : Instr),
    (∀ f, exec i s ≠ .fault f) ∧
    (∀ q, exec i s = .refused q →
      ((∃ w h c, i = .encStart w h c) ∧ s.phase = .pixels) ∨ (i = .encEnd ∧ s.phase = .idle) ∨
      ((∃ cur, i = .pixStep cur) ∧ s.phase ≠ .pixels) ∨ (∃ n r g b a, i = .rep n r g b a ∧ 0 < n) ∨
      i.wellFormed = false)

/-- R17, R21, R74: every step from a state that has the invariant of the machine gives one that has it. -/
def Obligations.StepKeepsInvariant : Prop :=
  ∀ s t : State, Safety.Inv s → step s = .next t → Safety.Inv t

/-- R19, R126 (e): every step keeps that after the header `out` is chunks that, with the deferred run, stand for exactly
the pixels stepped. -/
def Obligations.StepKeepsAccount : Prop :=
  ∀ s t : State, Safety.Inv s → (s.phase ≠ .idle → Safety.accounted s) → step s = .next t →
    t.phase ≠ .idle → Safety.accounted t

/-- R57 (f), (g): every step keeps that no RUN follows a RUN of less than 62 and that no two INDEX chunks of one slot
follow each other, RUNs between them or not. -/
def Obligations.StepKeepsChunksApart : Prop :=
  ∀ s t : State, Safety.Inv s → (s.phase ≠ .idle → Safety.chunksApart s) → step s = .next t →
    t.phase ≠ .idle → Safety.chunksApart t

/-- Every step keeps the Pixel Source, and with it the canonical form of its memory (R30, R43). -/
def Obligations.StepKeepsMemory : Prop :=
  ∀ s t : State, step s = .next t →
    t.src = s.src ∧ (Memory.wf s.src = true → Memory.wf t.src = true) ∧
    ∀ pos, Memory.read t.src pos = Memory.read s.src pos

/-- R77, R126 (b), (c), (d): the length of a finished output. -/
def Obligations.LengthLaws : Prop :=
  ∀ s : State, s.phase = .done → s.run = 0 → Safety.accounted s →
    (s.out.length = 14 ↔ Safety.gridSize s = 0) ∧ 14 ≤ s.out.length ∧
    s.out.length ≤ 14 + 5 * Safety.gridSize s ∧ Safety.gridSize s ≤ 62 * (s.out.length - 14)

/-- R76: with alpha 255 on every pixel no RGBA chunk is chosen, no untouched slot is hit, and this stays so. -/
def Obligations.OpaqueImages : Prop :=
  (∀ (s t : State) (w h : Word) (c : Byte), exec (.encStart w h c) s = .next t → Safety.opaqueOnly t) ∧
  ∀ (s : State) (cur : Pixel), Safety.opaqueOnly s → cur.a = 255 →
    Safety.opaqueOnly (pixelOp cur s) ∧
    (∀ r g b a, selectChunk s.prev (cacheRead s (pixelHash cur)) cur ≠ .rgba r g b a) ∧
    (cacheRead s (pixelHash cur) = Config.initSlot →
      ∀ idx, selectChunk s.prev (cacheRead s (pixelHash cur)) cur ≠ .index idx)

/-- R78, R126 (f): the bytes a pixel gives and the algorithm state after it depend on `prev`, `run`, the cache and the
pixel only: not on the dimensions, `channels`, the position or what is in `out`. -/
def Obligations.BodyIgnoresShapeAndChannels : Prop :=
  ∀ (s t : State) (cur : Pixel), s.prev = t.prev → s.run = t.run → s.cache = t.cache →
    ∃ bs, (pixelOp cur s).out = s.out ++ bs ∧ (pixelOp cur t).out = t.out ++ bs ∧
      (pixelOp cur s).prev = (pixelOp cur t).prev ∧ (pixelOp cur s).run = (pixelOp cur t).run ∧
      (pixelOp cur s).cache = (pixelOp cur t).cache

/-- In phase PIXELS, with a source that answers every position, the encode is over after exactly as many steps as
pixels are left, and before that it is not (the order of positions is R73). That ENC_END is no step of its own is the
model's (log entry 7): R158 counts it as one operation more. -/
def Obligations.EncodeEnds : Prop :=
  ∀ s : State, Safety.Inv s → s.phase = .pixels → s.host = [] →
    (∀ row col, row < s.height.toNat → col < s.width.toNat → (Memory.read s.src (row, col)).isSome = true) →
    (∃ t, Host.Core.run core (Safety.gridSize s - Safety.position s) s = .next t ∧ t.phase = .done ∧ t.run = 0) ∧
    ∀ k, k < Safety.gridSize s - Safety.position s →
      ∃ t, Host.Core.run core k s = .next t ∧ t.phase = .pixels ∧ Safety.position t = Safety.position s + k

/-- R70, R78: the whole encode. From any state in IDLE or DONE with a start command at the port and a source that holds
the grid, the machine is in DONE after ENC_START and `width * height` steps, and what the Sink gets is the encode
of the pixels in row-major order as the rules give it in integers. The number of steps is the model's (log entry 7):
ENC_END is performed inside the last of them, where R158 counts it as one operation more. -/
def Obligations.EncodeIsTheReference : Prop :=
  ∀ (s : State) (w h : Word) (c : Byte) (px : Nat → Nat → Pixel),
    s.phase ≠ .pixels → s.host = [.start w h c] →
    (∀ row col, row < h.toNat → col < w.toNat → Memory.read s.src (row, col) = some (px row col)) →
    ∃ t out, Host.Core.run core (1 + w.toNat * h.toNat) s = .next t ∧ t.phase = .done ∧ result t = some out ∧
      out.map BitVec.toNat = Ref.encode w.toNat h.toNat c.toNat (Ref.rowMajor w.toNat h.toNat px)
end

