-- ==== Sys2Proof/Laws/Decode.lean ====
section
/-! SUPPORT. Laws of the byte layouts in Decode.lean: the 32-bit words of the header and the bytes of each record. -/

namespace Sys2Proof

/-- The bytes of a word, put together, are the word (R34). -/
theorem ofBe32_be32 (v : Word) :
    ofBe32 (v.extractLsb' 24 8) (v.extractLsb' 16 8) (v.extractLsb' 8 8) (v.extractLsb' 0 8) = v := by
  apply BitVec.eq_of_getLsbD_eq
  intro i hi
  simp only [ofBe32, BitVec.getLsbD_append, BitVec.getLsbD_extractLsb']
  by_cases h1 : i < 8
  · simp [h1]
  by_cases h2 : i - 8 < 8
  · simp [h1, h2]; congr 1; omega
  by_cases h3 : i - 8 - 8 < 8
  · simp [h1, h2, h3]; congr 1; omega
  have h4 : i - 24 < 8 := by omega
  simp only [h1, h2, h3, decide_false, if_false]
  rw [show i - 8 - 8 - 8 = i - 24 by omega]
  simp [h4]; congr 1; omega

/-- The bytes of a word made of four bytes are those bytes (R34). -/
theorem be32_ofBe32 (a b c d : Byte) : be32 (ofBe32 a b c d) = [a, b, c, d] := by
  simp only [be32, ofBe32, List.cons.injEq, and_true]
  refine ⟨?_, ?_, ?_, ?_⟩ <;>
  · apply BitVec.eq_of_getLsbD_eq
    intro i hi
    simp only [BitVec.getLsbD_append, BitVec.getLsbD_extractLsb']
    have : ¬ (24 + i < 8) := by omega
    have : ¬ (16 + i < 8) := by omega
    have : ¬ (8 + i < 8) := by omega
    simp [*]
    repeat' split
    all_goals first | omega | (rw [← BitVec.getLsbD_eq_getElem]; congr 1; omega)

/-- The byte of a RUN as R101 writes it. -/
theorem encode_run (rl : BitVec 6) : encode (.run rl) = [0xC0#8 ||| rl.setWidth 8] := by revert rl; decide

/-- The byte of an INDEX is its index (R102). -/
theorem encode_index (idx : BitVec 6) : encode (.index idx) = [idx.setWidth 8] := by revert idx; decide

/-- A chunk has a byte, and at most five (R55). -/
theorem encode_chunk_length {i : Instr} (h : i.isChunk = true) :
    1 ≤ (encode i).length ∧ (encode i).length ≤ 5 := by
  cases i <;> simp_all [Instr.isChunk, encode]

/-- A chunk is in the chunk space and no pseudo-form. -/
theorem isChunk_space {i : Instr} (h : i.isChunk = true) : spaceOf i = .chunk ∧ i.isPseudo = false := by
  cases i <;> simp_all [Instr.isChunk, spaceOf, Instr.isPseudo]

end Sys2Proof
end

