-- ==== Sys2Proof/Laws/Memory.lean ====
section
/-! SUPPORT. The laws of the Pixel Source's memory and of the other two spaces: a read after a write, and that
the canonical form is kept. -/

namespace Sys2Proof

open Machine

theorem Memory.before_irrefl (a : Nat × Nat) : Memory.before a a = false := by simp [Memory.before]

theorem Memory.before_total {a b : Nat × Nat} (h : Memory.before a b = false) (hne : b ≠ a) :
    Memory.before b a = true := by
  obtain ⟨a1, a2⟩ := a
  obtain ⟨b1, b2⟩ := b
  simp only [Memory.before, Bool.or_eq_false_iff, Bool.and_eq_false_iff, decide_eq_false_iff_not,
    Bool.or_eq_true, Bool.and_eq_true, decide_eq_true_eq, ne_eq, Prod.mk.injEq] at *
  omega

/-- What is written is read. -/
theorem Memory.read_write_same (m : List PixCell) (a : Nat × Nat) (p : Pixel) :
    Memory.read (Memory.write m a p) a = some p := by
  induction m with
  | nil => simp [Memory.write, Memory.read]
  | cons c m ih =>
    simp only [Memory.write]
    split
    · simp [Memory.read]
    · split
      · simp [Memory.read]
      · next h => simp [Memory.read, h, ih]

/-- A write leaves every other position alone. -/
theorem Memory.read_write_other (m : List PixCell) {a b : Nat × Nat} (p : Pixel) (h : b ≠ a) :
    Memory.read (Memory.write m a p) b = Memory.read m b := by
  induction m with
  | nil => simp [Memory.write, Memory.read, h.symm]
  | cons c m ih =>
    simp only [Memory.write]
    split
    · simp [Memory.read, h.symm]
    · split
      · next hc => subst hc; simp [Memory.read, h.symm]
      · simp [Memory.read, ih]

theorem Memory.wf_tail {c : PixCell} {m : List PixCell} (h : Memory.wf (c :: m) = true) : Memory.wf m = true := by
  cases m with
  | nil => rfl
  | cons d m => simp only [Memory.wf, Bool.and_eq_true] at h; exact h.2

/-- A write keeps the canonical form. -/
theorem Memory.write_wf (m : List PixCell) (a : Nat × Nat) (p : Pixel) (h : Memory.wf m = true) :
    Memory.wf (Memory.write m a p) = true := by
  induction m with
  | nil => rfl
  | cons c m ih =>
    simp only [Memory.write]
    split
    · next hb => simp [Memory.wf, hb, h]
    · next hb =>
      have hb : Memory.before a c.1 = false := by simpa using hb
      split
      · next hc =>
        cases m with
        | nil => rfl
        | cons d m => simpa only [Memory.wf, hc] using h
      · next hc =>
        have ih := ih (Memory.wf_tail h)
        have hca := Memory.before_total hb hc
        cases m with
        | nil => simp [Memory.write, Memory.wf, hca]
        | cons d m =>
          simp only [Memory.wf, Bool.and_eq_true] at h
          simp only [Memory.write] at ih ⊢
          split
          · next hd => simp only [Memory.wf, Bool.and_eq_true]; exact ⟨hca, hd, h.2⟩
          · next hd =>
            simp only [hd, Bool.false_eq_true, if_false] at ih
            split
            · next hda => simp only [hda, if_true] at ih; simp only [Memory.wf, hca, ih, Bool.and_self]
            · next hda => simp only [hda, if_false] at ih; simp only [Memory.wf, h.1, ih, Bool.and_self]

/-- The memory after reset has the canonical form. -/
theorem Memory.reset_wf : Memory.wf State.reset.src = true := by decide

/-! ### CACHE -/

/-- What is written to a slot is read. -/
@[simp] theorem Machine.cacheRead_cacheWrite_same (i : BitVec 6) (p : Pixel) (s : State) :
    cacheRead (cacheWrite i p s) i = p := by simp [cacheRead, cacheWrite]

/-- A write leaves every other slot alone. -/
theorem Machine.cacheRead_cacheWrite_other {i j : BitVec 6} (p : Pixel) (s : State) (h : i ≠ j) :
    cacheRead (cacheWrite i p s) j = cacheRead s j := by
  have hij : i.toNat ≠ j.toNat := fun e => h (BitVec.eq_of_toNat_eq e)
  simp [cacheRead, cacheWrite, hij]

/-! ### OUT -/

/-- An emitted byte does not change the bytes before it (R33, R120). -/
theorem Machine.outRead_emit_lt (bs : List Byte) (s : State) {off : Nat} (h : off < s.out.length) :
    outRead (emit bs s) off = outRead s off := by
  simp [outRead, emit, List.getElem?_append, h]

/-- The emitted bytes stand at the old length of `out` and after it (R120). -/
theorem Machine.outRead_emit_ge (bs : List Byte) (s : State) (k : Nat) :
    outRead (emit bs s) (s.out.length + k) = bs[k]? := by
  simp [outRead, emit, List.getElem?_append]

end Sys2Proof
end

