-- ==== Sys2Proof/Laws/State.lean ====
section
/-! SUPPORT. One lemma per field and update of State: what each named operation leaves in each field. -/

namespace Sys2Proof.Machine

/-! ### emit -/

@[simp] theorem emit_prev (bs : List Byte) (s : State) : (emit bs s).prev = s.prev := rfl
@[simp] theorem emit_run (bs : List Byte) (s : State) : (emit bs s).run = s.run := rfl
@[simp] theorem emit_cache (bs : List Byte) (s : State) : (emit bs s).cache = s.cache := rfl
@[simp] theorem emit_out (bs : List Byte) (s : State) : (emit bs s).out = s.out ++ bs := rfl
@[simp] theorem emit_width (bs : List Byte) (s : State) : (emit bs s).width = s.width := rfl
@[simp] theorem emit_height (bs : List Byte) (s : State) : (emit bs s).height = s.height := rfl
@[simp] theorem emit_channels (bs : List Byte) (s : State) : (emit bs s).channels = s.channels := rfl
@[simp] theorem emit_phase (bs : List Byte) (s : State) : (emit bs s).phase = s.phase := rfl
@[simp] theorem emit_row (bs : List Byte) (s : State) : (emit bs s).row = s.row := rfl
@[simp] theorem emit_col (bs : List Byte) (s : State) : (emit bs s).col = s.col := rfl
@[simp] theorem emit_src (bs : List Byte) (s : State) : (emit bs s).src = s.src := rfl
@[simp] theorem emit_host (bs : List Byte) (s : State) : (emit bs s).host = s.host := rfl
@[simp] theorem emit_free (bs : List Byte) (s : State) : (emit bs s).free = s.free := rfl

/-! ### cacheWrite -/

@[simp] theorem cacheWrite_prev (i : BitVec 6) (p : Pixel) (s : State) : (cacheWrite i p s).prev = s.prev := rfl
@[simp] theorem cacheWrite_run (i : BitVec 6) (p : Pixel) (s : State) : (cacheWrite i p s).run = s.run := rfl
@[simp] theorem cacheWrite_cache (i : BitVec 6) (p : Pixel) (s : State) : (cacheWrite i p s).cache = s.cache.set i.toFin p := rfl
@[simp] theorem cacheWrite_out (i : BitVec 6) (p : Pixel) (s : State) : (cacheWrite i p s).out = s.out := rfl
@[simp] theorem cacheWrite_width (i : BitVec 6) (p : Pixel) (s : State) : (cacheWrite i p s).width = s.width := rfl
@[simp] theorem cacheWrite_height (i : BitVec 6) (p : Pixel) (s : State) : (cacheWrite i p s).height = s.height := rfl
@[simp] theorem cacheWrite_channels (i : BitVec 6) (p : Pixel) (s : State) : (cacheWrite i p s).channels = s.channels := rfl
@[simp] theorem cacheWrite_phase (i : BitVec 6) (p : Pixel) (s : State) : (cacheWrite i p s).phase = s.phase := rfl
@[simp] theorem cacheWrite_row (i : BitVec 6) (p : Pixel) (s : State) : (cacheWrite i p s).row = s.row := rfl
@[simp] theorem cacheWrite_col (i : BitVec 6) (p : Pixel) (s : State) : (cacheWrite i p s).col = s.col := rfl
@[simp] theorem cacheWrite_src (i : BitVec 6) (p : Pixel) (s : State) : (cacheWrite i p s).src = s.src := rfl
@[simp] theorem cacheWrite_host (i : BitVec 6) (p : Pixel) (s : State) : (cacheWrite i p s).host = s.host := rfl
@[simp] theorem cacheWrite_free (i : BitVec 6) (p : Pixel) (s : State) : (cacheWrite i p s).free = s.free := rfl

/-! ### setRun -/

@[simp] theorem setRun_prev (n : BitVec 6) (s : State) : (setRun n s).prev = s.prev := rfl
@[simp] theorem setRun_run (n : BitVec 6) (s : State) : (setRun n s).run = n := rfl
@[simp] theorem setRun_cache (n : BitVec 6) (s : State) : (setRun n s).cache = s.cache := rfl
@[simp] theorem setRun_out (n : BitVec 6) (s : State) : (setRun n s).out = s.out := rfl
@[simp] theorem setRun_width (n : BitVec 6) (s : State) : (setRun n s).width = s.width := rfl
@[simp] theorem setRun_height (n : BitVec 6) (s : State) : (setRun n s).height = s.height := rfl
@[simp] theorem setRun_channels (n : BitVec 6) (s : State) : (setRun n s).channels = s.channels := rfl
@[simp] theorem setRun_phase (n : BitVec 6) (s : State) : (setRun n s).phase = s.phase := rfl
@[simp] theorem setRun_row (n : BitVec 6) (s : State) : (setRun n s).row = s.row := rfl
@[simp] theorem setRun_col (n : BitVec 6) (s : State) : (setRun n s).col = s.col := rfl
@[simp] theorem setRun_src (n : BitVec 6) (s : State) : (setRun n s).src = s.src := rfl
@[simp] theorem setRun_host (n : BitVec 6) (s : State) : (setRun n s).host = s.host := rfl
@[simp] theorem setRun_free (n : BitVec 6) (s : State) : (setRun n s).free = s.free := rfl

/-! ### setPrev -/

@[simp] theorem setPrev_prev (p : Pixel) (s : State) : (setPrev p s).prev = p := rfl
@[simp] theorem setPrev_run (p : Pixel) (s : State) : (setPrev p s).run = s.run := rfl
@[simp] theorem setPrev_cache (p : Pixel) (s : State) : (setPrev p s).cache = s.cache := rfl
@[simp] theorem setPrev_out (p : Pixel) (s : State) : (setPrev p s).out = s.out := rfl
@[simp] theorem setPrev_width (p : Pixel) (s : State) : (setPrev p s).width = s.width := rfl
@[simp] theorem setPrev_height (p : Pixel) (s : State) : (setPrev p s).height = s.height := rfl
@[simp] theorem setPrev_channels (p : Pixel) (s : State) : (setPrev p s).channels = s.channels := rfl
@[simp] theorem setPrev_phase (p : Pixel) (s : State) : (setPrev p s).phase = s.phase := rfl
@[simp] theorem setPrev_row (p : Pixel) (s : State) : (setPrev p s).row = s.row := rfl
@[simp] theorem setPrev_col (p : Pixel) (s : State) : (setPrev p s).col = s.col := rfl
@[simp] theorem setPrev_src (p : Pixel) (s : State) : (setPrev p s).src = s.src := rfl
@[simp] theorem setPrev_host (p : Pixel) (s : State) : (setPrev p s).host = s.host := rfl
@[simp] theorem setPrev_free (p : Pixel) (s : State) : (setPrev p s).free = s.free := rfl

/-! ### setPhase -/

@[simp] theorem setPhase_prev (ph : Phase) (s : State) : (setPhase ph s).prev = s.prev := rfl
@[simp] theorem setPhase_run (ph : Phase) (s : State) : (setPhase ph s).run = s.run := rfl
@[simp] theorem setPhase_cache (ph : Phase) (s : State) : (setPhase ph s).cache = s.cache := rfl
@[simp] theorem setPhase_out (ph : Phase) (s : State) : (setPhase ph s).out = s.out := rfl
@[simp] theorem setPhase_width (ph : Phase) (s : State) : (setPhase ph s).width = s.width := rfl
@[simp] theorem setPhase_height (ph : Phase) (s : State) : (setPhase ph s).height = s.height := rfl
@[simp] theorem setPhase_channels (ph : Phase) (s : State) : (setPhase ph s).channels = s.channels := rfl
@[simp] theorem setPhase_phase (ph : Phase) (s : State) : (setPhase ph s).phase = ph := rfl
@[simp] theorem setPhase_row (ph : Phase) (s : State) : (setPhase ph s).row = s.row := rfl
@[simp] theorem setPhase_col (ph : Phase) (s : State) : (setPhase ph s).col = s.col := rfl
@[simp] theorem setPhase_src (ph : Phase) (s : State) : (setPhase ph s).src = s.src := rfl
@[simp] theorem setPhase_host (ph : Phase) (s : State) : (setPhase ph s).host = s.host := rfl
@[simp] theorem setPhase_free (ph : Phase) (s : State) : (setPhase ph s).free = s.free := rfl

/-! ### setPosition -/

@[simp] theorem setPosition_prev (row col : Word) (s : State) : (setPosition row col s).prev = s.prev := rfl
@[simp] theorem setPosition_run (row col : Word) (s : State) : (setPosition row col s).run = s.run := rfl
@[simp] theorem setPosition_cache (row col : Word) (s : State) : (setPosition row col s).cache = s.cache := rfl
@[simp] theorem setPosition_out (row col : Word) (s : State) : (setPosition row col s).out = s.out := rfl
@[simp] theorem setPosition_width (row col : Word) (s : State) : (setPosition row col s).width = s.width := rfl
@[simp] theorem setPosition_height (row col : Word) (s : State) : (setPosition row col s).height = s.height := rfl
@[simp] theorem setPosition_channels (row col : Word) (s : State) : (setPosition row col s).channels = s.channels := rfl
@[simp] theorem setPosition_phase (row col : Word) (s : State) : (setPosition row col s).phase = s.phase := rfl
@[simp] theorem setPosition_row (row col : Word) (s : State) : (setPosition row col s).row = row := rfl
@[simp] theorem setPosition_col (row col : Word) (s : State) : (setPosition row col s).col = col := rfl
@[simp] theorem setPosition_src (row col : Word) (s : State) : (setPosition row col s).src = s.src := rfl
@[simp] theorem setPosition_host (row col : Word) (s : State) : (setPosition row col s).host = s.host := rfl
@[simp] theorem setPosition_free (row col : Word) (s : State) : (setPosition row col s).free = s.free := rfl

/-! ### latch -/

@[simp] theorem latch_prev (w h : Word) (c : Byte) (s : State) : (latch w h c s).prev = s.prev := rfl
@[simp] theorem latch_run (w h : Word) (c : Byte) (s : State) : (latch w h c s).run = s.run := rfl
@[simp] theorem latch_cache (w h : Word) (c : Byte) (s : State) : (latch w h c s).cache = s.cache := rfl
@[simp] theorem latch_out (w h : Word) (c : Byte) (s : State) : (latch w h c s).out = s.out := rfl
@[simp] theorem latch_width (w h : Word) (c : Byte) (s : State) : (latch w h c s).width = w := rfl
@[simp] theorem latch_height (w h : Word) (c : Byte) (s : State) : (latch w h c s).height = h := rfl
@[simp] theorem latch_channels (w h : Word) (c : Byte) (s : State) : (latch w h c s).channels = c := rfl
@[simp] theorem latch_phase (w h : Word) (c : Byte) (s : State) : (latch w h c s).phase = s.phase := rfl
@[simp] theorem latch_row (w h : Word) (c : Byte) (s : State) : (latch w h c s).row = s.row := rfl
@[simp] theorem latch_col (w h : Word) (c : Byte) (s : State) : (latch w h c s).col = s.col := rfl
@[simp] theorem latch_src (w h : Word) (c : Byte) (s : State) : (latch w h c s).src = s.src := rfl
@[simp] theorem latch_host (w h : Word) (c : Byte) (s : State) : (latch w h c s).host = s.host := rfl
@[simp] theorem latch_free (w h : Word) (c : Byte) (s : State) : (latch w h c s).free = s.free := rfl

/-! ### drawFree -/

@[simp] theorem drawFree_prev (s : State) : (drawFree s).prev = s.prev := rfl
@[simp] theorem drawFree_run (s : State) : (drawFree s).run = s.run := rfl
@[simp] theorem drawFree_cache (s : State) : (drawFree s).cache = s.cache := rfl
@[simp] theorem drawFree_out (s : State) : (drawFree s).out = s.out := rfl
@[simp] theorem drawFree_width (s : State) : (drawFree s).width = s.width := rfl
@[simp] theorem drawFree_height (s : State) : (drawFree s).height = s.height := rfl
@[simp] theorem drawFree_channels (s : State) : (drawFree s).channels = s.channels := rfl
@[simp] theorem drawFree_phase (s : State) : (drawFree s).phase = s.phase := rfl
@[simp] theorem drawFree_row (s : State) : (drawFree s).row = s.row := rfl
@[simp] theorem drawFree_col (s : State) : (drawFree s).col = s.col := rfl
@[simp] theorem drawFree_src (s : State) : (drawFree s).src = s.src := rfl
@[simp] theorem drawFree_host (s : State) : (drawFree s).host = s.host := rfl
@[simp] theorem drawFree_free (s : State) : (drawFree s).free = s.free + 1 := rfl

/-! ### setHost -/

@[simp] theorem setHost_prev (es : List HostEvent) (s : State) : (setHost es s).prev = s.prev := rfl
@[simp] theorem setHost_run (es : List HostEvent) (s : State) : (setHost es s).run = s.run := rfl
@[simp] theorem setHost_cache (es : List HostEvent) (s : State) : (setHost es s).cache = s.cache := rfl
@[simp] theorem setHost_out (es : List HostEvent) (s : State) : (setHost es s).out = s.out := rfl
@[simp] theorem setHost_width (es : List HostEvent) (s : State) : (setHost es s).width = s.width := rfl
@[simp] theorem setHost_height (es : List HostEvent) (s : State) : (setHost es s).height = s.height := rfl
@[simp] theorem setHost_channels (es : List HostEvent) (s : State) : (setHost es s).channels = s.channels := rfl
@[simp] theorem setHost_phase (es : List HostEvent) (s : State) : (setHost es s).phase = s.phase := rfl
@[simp] theorem setHost_row (es : List HostEvent) (s : State) : (setHost es s).row = s.row := rfl
@[simp] theorem setHost_col (es : List HostEvent) (s : State) : (setHost es s).col = s.col := rfl
@[simp] theorem setHost_src (es : List HostEvent) (s : State) : (setHost es s).src = s.src := rfl
@[simp] theorem setHost_host (es : List HostEvent) (s : State) : (setHost es s).host = es := rfl
@[simp] theorem setHost_free (es : List HostEvent) (s : State) : (setHost es s).free = s.free := rfl

/-! ### freshAlgorithm -/

@[simp] theorem freshAlgorithm_prev (s : State) : (freshAlgorithm s).prev = Config.initPrev := rfl
@[simp] theorem freshAlgorithm_run (s : State) : (freshAlgorithm s).run = 0 := rfl
@[simp] theorem freshAlgorithm_cache (s : State) : (freshAlgorithm s).cache = Vector.replicate 64 Config.initSlot := rfl
@[simp] theorem freshAlgorithm_out (s : State) : (freshAlgorithm s).out = s.out := rfl
@[simp] theorem freshAlgorithm_width (s : State) : (freshAlgorithm s).width = s.width := rfl
@[simp] theorem freshAlgorithm_height (s : State) : (freshAlgorithm s).height = s.height := rfl
@[simp] theorem freshAlgorithm_channels (s : State) : (freshAlgorithm s).channels = s.channels := rfl
@[simp] theorem freshAlgorithm_phase (s : State) : (freshAlgorithm s).phase = s.phase := rfl
@[simp] theorem freshAlgorithm_row (s : State) : (freshAlgorithm s).row = 0 := rfl
@[simp] theorem freshAlgorithm_col (s : State) : (freshAlgorithm s).col = 0 := rfl
@[simp] theorem freshAlgorithm_src (s : State) : (freshAlgorithm s).src = s.src := rfl
@[simp] theorem freshAlgorithm_host (s : State) : (freshAlgorithm s).host = s.host := rfl
@[simp] theorem freshAlgorithm_free (s : State) : (freshAlgorithm s).free = s.free := rfl

/-! ### commit -/

@[simp] theorem commit_prev (i : BitVec 6) (p : Pixel) (s : State) : (commit i p s).prev = p := rfl
@[simp] theorem commit_run (i : BitVec 6) (p : Pixel) (s : State) : (commit i p s).run = s.run := rfl
@[simp] theorem commit_cache (i : BitVec 6) (p : Pixel) (s : State) : (commit i p s).cache = s.cache.set i.toFin p := rfl
@[simp] theorem commit_out (i : BitVec 6) (p : Pixel) (s : State) : (commit i p s).out = s.out := rfl
@[simp] theorem commit_width (i : BitVec 6) (p : Pixel) (s : State) : (commit i p s).width = s.width := rfl
@[simp] theorem commit_height (i : BitVec 6) (p : Pixel) (s : State) : (commit i p s).height = s.height := rfl
@[simp] theorem commit_channels (i : BitVec 6) (p : Pixel) (s : State) : (commit i p s).channels = s.channels := rfl
@[simp] theorem commit_phase (i : BitVec 6) (p : Pixel) (s : State) : (commit i p s).phase = s.phase := rfl
@[simp] theorem commit_row (i : BitVec 6) (p : Pixel) (s : State) : (commit i p s).row = s.row := rfl
@[simp] theorem commit_col (i : BitVec 6) (p : Pixel) (s : State) : (commit i p s).col = s.col := rfl
@[simp] theorem commit_src (i : BitVec 6) (p : Pixel) (s : State) : (commit i p s).src = s.src := rfl
@[simp] theorem commit_host (i : BitVec 6) (p : Pixel) (s : State) : (commit i p s).host = s.host := rfl
@[simp] theorem commit_free (i : BitVec 6) (p : Pixel) (s : State) : (commit i p s).free = s.free := rfl

/-! ### flushRun -/

@[simp] theorem flushRun_prev (s : State) : (flushRun s).prev = s.prev := rfl
@[simp] theorem flushRun_run (s : State) : (flushRun s).run = 0 := rfl
@[simp] theorem flushRun_cache (s : State) : (flushRun s).cache = s.cache := rfl
@[simp] theorem flushRun_out (s : State) : (flushRun s).out = s.out ++ encode (.run (s.run - 1)) := rfl
@[simp] theorem flushRun_width (s : State) : (flushRun s).width = s.width := rfl
@[simp] theorem flushRun_height (s : State) : (flushRun s).height = s.height := rfl
@[simp] theorem flushRun_channels (s : State) : (flushRun s).channels = s.channels := rfl
@[simp] theorem flushRun_phase (s : State) : (flushRun s).phase = s.phase := rfl
@[simp] theorem flushRun_row (s : State) : (flushRun s).row = s.row := rfl
@[simp] theorem flushRun_col (s : State) : (flushRun s).col = s.col := rfl
@[simp] theorem flushRun_src (s : State) : (flushRun s).src = s.src := rfl
@[simp] theorem flushRun_host (s : State) : (flushRun s).host = s.host := rfl
@[simp] theorem flushRun_free (s : State) : (flushRun s).free = s.free := rfl

/-! ### hardwareReset -/

@[simp] theorem hardwareReset_prev (s : State) : (hardwareReset s).prev = State.reset.prev := rfl
@[simp] theorem hardwareReset_run (s : State) : (hardwareReset s).run = State.reset.run := rfl
@[simp] theorem hardwareReset_cache (s : State) : (hardwareReset s).cache = State.reset.cache := rfl
@[simp] theorem hardwareReset_out (s : State) : (hardwareReset s).out = State.reset.out := rfl
@[simp] theorem hardwareReset_width (s : State) : (hardwareReset s).width = State.reset.width := rfl
@[simp] theorem hardwareReset_height (s : State) : (hardwareReset s).height = State.reset.height := rfl
@[simp] theorem hardwareReset_channels (s : State) : (hardwareReset s).channels = State.reset.channels := rfl
@[simp] theorem hardwareReset_phase (s : State) : (hardwareReset s).phase = State.reset.phase := rfl
@[simp] theorem hardwareReset_row (s : State) : (hardwareReset s).row = State.reset.row := rfl
@[simp] theorem hardwareReset_col (s : State) : (hardwareReset s).col = State.reset.col := rfl
@[simp] theorem hardwareReset_src (s : State) : (hardwareReset s).src = s.src := rfl
@[simp] theorem hardwareReset_host (s : State) : (hardwareReset s).host = s.host := rfl
@[simp] theorem hardwareReset_free (s : State) : (hardwareReset s).free = s.free := rfl

/-! ### The conditional operations: the fields they never write -/

@[simp] theorem capFlush_prev (s : State) : (capFlush s).prev = s.prev := by unfold capFlush; split <;> rfl
@[simp] theorem capFlush_cache (s : State) : (capFlush s).cache = s.cache := by unfold capFlush; split <;> rfl
@[simp] theorem capFlush_width (s : State) : (capFlush s).width = s.width := by unfold capFlush; split <;> rfl
@[simp] theorem capFlush_height (s : State) : (capFlush s).height = s.height := by unfold capFlush; split <;> rfl
@[simp] theorem capFlush_channels (s : State) : (capFlush s).channels = s.channels := by unfold capFlush; split <;> rfl
@[simp] theorem capFlush_phase (s : State) : (capFlush s).phase = s.phase := by unfold capFlush; split <;> rfl
@[simp] theorem capFlush_row (s : State) : (capFlush s).row = s.row := by unfold capFlush; split <;> rfl
@[simp] theorem capFlush_col (s : State) : (capFlush s).col = s.col := by unfold capFlush; split <;> rfl
@[simp] theorem capFlush_src (s : State) : (capFlush s).src = s.src := by unfold capFlush; split <;> rfl
@[simp] theorem capFlush_host (s : State) : (capFlush s).host = s.host := by unfold capFlush; split <;> rfl
@[simp] theorem capFlush_free (s : State) : (capFlush s).free = s.free := by unfold capFlush; split <;> rfl

@[simp] theorem deferredFlush_prev (s : State) : (deferredFlush s).prev = s.prev := by unfold deferredFlush; split <;> rfl
@[simp] theorem deferredFlush_cache (s : State) : (deferredFlush s).cache = s.cache := by unfold deferredFlush; split <;> rfl
@[simp] theorem deferredFlush_width (s : State) : (deferredFlush s).width = s.width := by unfold deferredFlush; split <;> rfl
@[simp] theorem deferredFlush_height (s : State) : (deferredFlush s).height = s.height := by unfold deferredFlush; split <;> rfl
@[simp] theorem deferredFlush_channels (s : State) : (deferredFlush s).channels = s.channels := by unfold deferredFlush; split <;> rfl
@[simp] theorem deferredFlush_phase (s : State) : (deferredFlush s).phase = s.phase := by unfold deferredFlush; split <;> rfl
@[simp] theorem deferredFlush_row (s : State) : (deferredFlush s).row = s.row := by unfold deferredFlush; split <;> rfl
@[simp] theorem deferredFlush_col (s : State) : (deferredFlush s).col = s.col := by unfold deferredFlush; split <;> rfl
@[simp] theorem deferredFlush_src (s : State) : (deferredFlush s).src = s.src := by unfold deferredFlush; split <;> rfl
@[simp] theorem deferredFlush_host (s : State) : (deferredFlush s).host = s.host := by unfold deferredFlush; split <;> rfl
@[simp] theorem deferredFlush_free (s : State) : (deferredFlush s).free = s.free := by unfold deferredFlush; split <;> rfl

@[simp] theorem endOp_prev (s : State) : (endOp s).prev = s.prev := by simp [endOp]
@[simp] theorem endOp_cache (s : State) : (endOp s).cache = s.cache := by simp [endOp]
@[simp] theorem endOp_width (s : State) : (endOp s).width = s.width := by simp [endOp]
@[simp] theorem endOp_height (s : State) : (endOp s).height = s.height := by simp [endOp]
@[simp] theorem endOp_channels (s : State) : (endOp s).channels = s.channels := by simp [endOp]
@[simp] theorem endOp_row (s : State) : (endOp s).row = s.row := by simp [endOp]
@[simp] theorem endOp_col (s : State) : (endOp s).col = s.col := by simp [endOp]
@[simp] theorem endOp_src (s : State) : (endOp s).src = s.src := by simp [endOp]
@[simp] theorem endOp_host (s : State) : (endOp s).host = s.host := by simp [endOp]
@[simp] theorem endOp_free (s : State) : (endOp s).free = s.free := by simp [endOp]
@[simp] theorem endOp_phase (s : State) : (endOp s).phase = .done := rfl

@[simp] theorem advance_prev (s : State) : (advance s).prev = s.prev := by unfold advance; split <;> simp
@[simp] theorem advance_cache (s : State) : (advance s).cache = s.cache := by unfold advance; split <;> simp
@[simp] theorem advance_width (s : State) : (advance s).width = s.width := by unfold advance; split <;> simp
@[simp] theorem advance_height (s : State) : (advance s).height = s.height := by unfold advance; split <;> simp
@[simp] theorem advance_channels (s : State) : (advance s).channels = s.channels := by unfold advance; split <;> simp
@[simp] theorem advance_src (s : State) : (advance s).src = s.src := by unfold advance; split <;> simp
@[simp] theorem advance_host (s : State) : (advance s).host = s.host := by unfold advance; split <;> simp
@[simp] theorem advance_free (s : State) : (advance s).free = s.free := by unfold advance; split <;> simp

@[simp] theorem codePixel_width (p : Pixel) (s : State) : (codePixel p s).width = s.width := rfl
@[simp] theorem codePixel_height (p : Pixel) (s : State) : (codePixel p s).height = s.height := rfl
@[simp] theorem codePixel_channels (p : Pixel) (s : State) : (codePixel p s).channels = s.channels := rfl
@[simp] theorem codePixel_phase (p : Pixel) (s : State) : (codePixel p s).phase = s.phase := rfl
@[simp] theorem codePixel_row (p : Pixel) (s : State) : (codePixel p s).row = s.row := rfl
@[simp] theorem codePixel_col (p : Pixel) (s : State) : (codePixel p s).col = s.col := rfl
@[simp] theorem codePixel_src (p : Pixel) (s : State) : (codePixel p s).src = s.src := rfl
@[simp] theorem codePixel_host (p : Pixel) (s : State) : (codePixel p s).host = s.host := rfl
@[simp] theorem codePixel_free (p : Pixel) (s : State) : (codePixel p s).free = s.free := rfl

@[simp] theorem pixelOp_width (p : Pixel) (s : State) : (pixelOp p s).width = s.width := by unfold pixelOp; split <;> simp
@[simp] theorem pixelOp_height (p : Pixel) (s : State) : (pixelOp p s).height = s.height := by unfold pixelOp; split <;> simp
@[simp] theorem pixelOp_channels (p : Pixel) (s : State) : (pixelOp p s).channels = s.channels := by unfold pixelOp; split <;> simp
@[simp] theorem pixelOp_phase (p : Pixel) (s : State) : (pixelOp p s).phase = s.phase := by unfold pixelOp; split <;> simp
@[simp] theorem pixelOp_row (p : Pixel) (s : State) : (pixelOp p s).row = s.row := by unfold pixelOp; split <;> simp
@[simp] theorem pixelOp_col (p : Pixel) (s : State) : (pixelOp p s).col = s.col := by unfold pixelOp; split <;> simp
@[simp] theorem pixelOp_src (p : Pixel) (s : State) : (pixelOp p s).src = s.src := by unfold pixelOp; split <;> simp
@[simp] theorem pixelOp_host (p : Pixel) (s : State) : (pixelOp p s).host = s.host := by unfold pixelOp; split <;> simp
@[simp] theorem pixelOp_free (p : Pixel) (s : State) : (pixelOp p s).free = s.free := by unfold pixelOp; split <;> simp

end Sys2Proof.Machine
end

