-- ==== Sys2Proof/Laws/Ops.lean ====
section
/-! SUPPORT. For each shared operation, once, all it can do. -/

namespace Sys2Proof.Machine

/-! ### Operands and predicates -/

theorem pixelHash_toNat (p : Pixel) : (pixelHash p).toNat = hashSum p % 64 := by simp [pixelHash]

/-- A field of DIFF holds its difference and 2 (R53, R107 (e)). -/
theorem biased_diff (d : Int) (h : -2 ≤ d) (h' : d ≤ 1) : ((biased 2 2 d).toNat : Int) = d + 2 := by
  interval_cases d <;> decide

/-- The green field of LUMA holds its difference and 32 (R53, R107 (e)). -/
theorem biased_luma (d : Int) (h : -32 ≤ d) (h' : d ≤ 31) : ((biased 6 32 d).toNat : Int) = d + 32 := by
  interval_cases d <;> decide

/-- The other fields of LUMA hold their difference and 8 (R53, R107 (e)). -/
theorem biased_nibble (d : Int) (h : -8 ≤ d) (h' : d ≤ 7) : ((biased 4 8 d).toNat : Int) = d + 8 := by
  interval_cases d <;> decide

/-- "Alpha is unchanged" is equality of the alpha bytes (R84). -/
theorem alphaSame_iff (cur prev : Pixel) : alphaSame (pixelDiffs cur prev) = true ↔ cur.a = prev.a := by
  have e : (pixelDiffs cur prev).da = (cur.a.toNat : Int) - prev.a.toNat := rfl
  simp only [alphaSame, decide_eq_true_eq, e]
  constructor
  · intro h; apply BitVec.eq_of_toNat_eq; omega
  · intro h; rw [h]; omega

theorem diffOk_iff (d : Diffs) : diffOk d = true ↔ alphaSame d = true ∧
    (-2 ≤ d.dr ∧ d.dr ≤ 1) ∧ (-2 ≤ d.dg ∧ d.dg ≤ 1) ∧ (-2 ≤ d.db ∧ d.db ≤ 1) := by
  simp [diffOk, inRange, and_assoc]

theorem lumaOk_iff (d : Diffs) : lumaOk d = true ↔ alphaSame d = true ∧ (-32 ≤ d.dg ∧ d.dg ≤ 31) ∧
    (-8 ≤ d.dr - d.dg ∧ d.dr - d.dg ≤ 7) ∧ (-8 ≤ d.db - d.dg ∧ d.db - d.dg ≤ 7) := by
  simp [lumaOk, inRange, and_assoc]

/-- The selector gives a chunk that exists, of one pixel, and never a RUN. -/
theorem selectChunk_ok (prev slot cur : Pixel) :
    (selectChunk prev slot cur).isChunk = true ∧ (selectChunk prev slot cur).wellFormed = true ∧
    (selectChunk prev slot cur).pixels = 1 ∧ ∀ rl, selectChunk prev slot cur ≠ .run rl := by
  unfold selectChunk
  simp only
  repeat' split
  all_goals simp [Instr.isChunk, Instr.wellFormed, Instr.pixels]

/-- The channel that lies `d` above another, exactly. -/
theorem channelAt_some {c x : Byte} {d : Int} (h : channelAt c d = some x) : (x.toNat : Int) = c.toNat + d := by
  simp only [channelAt] at h
  split at h
  · cases h; rw [BitVec.toNat_ofInt]; simp; omega
  · cases h

theorem channelAt_isSome {c : Byte} {d : Int} (h : 0 ≤ (c.toNat : Int) + d) (h' : (c.toNat : Int) + d ≤ 255) :
    ∃ x, channelAt c d = some x := ⟨_, by simp only [channelAt]; rw [if_pos ⟨h, h'⟩]⟩

/-- The channel at the difference of a channel is that channel. -/
theorem channelAt_channelDiff (a b : Byte) : channelAt a (channelDiff b a) = some b := by
  have := a.isLt; have := b.isLt
  have e : (a.toNat : Int) + channelDiff b a = b.toNat := by simp only [channelDiff]; omega
  simp only [channelAt, e]
  rw [if_pos (by omega)]
  simp

/-! ### The run counter -/

theorem capFlush_at_cap {s : State} (h : s.run = 62) : capFlush s = flushRun s := by simp [capFlush, h]

theorem capFlush_below {s : State} (h : s.run ≠ 62) : capFlush s = s := by
  simp [capFlush]; intro h'; exact absurd h' h

theorem deferredFlush_none {s : State} (h : s.run = 0) : deferredFlush s = s := by simp [deferredFlush, h]

theorem deferredFlush_some {s : State} (h : s.run ≠ 0) : deferredFlush s = flushRun s := by
  simp [deferredFlush]; intro h'; exact absurd h' h

/-- Clauses 1 and 3 together flush once what there is to flush (R83). -/
theorem flushes_eq (s : State) : deferredFlush (capFlush s) = if s.run = 0 then s else flushRun s := by
  by_cases h0 : s.run = 0
  · rw [capFlush_below (by rw [h0]; decide), deferredFlush_none h0, if_pos h0]
  · rw [if_neg h0]
    by_cases h62 : s.run = 62
    · rw [capFlush_at_cap h62, deferredFlush_none rfl]
    · rw [capFlush_below h62, deferredFlush_some h0]

/-- A run in hand, less 1, as a number. -/
theorem run_pred {r : BitVec 6} (h : r ≠ 0) : (r - 1).toNat = r.toNat - 1 ∧ 1 ≤ r.toNat := by
  have h1 : r.toNat ≠ 0 := fun h' => h (BitVec.eq_of_toNat_eq h')
  have := r.isLt
  rw [BitVec.toNat_sub]; simp; omega

/-! ### PIX_STEP -/

theorem pixelOp_repeat {cur : Pixel} {s : State} (h : cur = s.prev) :
    pixelOp cur s = setRun ((capFlush s).run + 1) (capFlush s) := by simp [pixelOp, isRepeat, h]

theorem pixelOp_other {cur : Pixel} {s : State} (h : cur ≠ s.prev) :
    pixelOp cur s = codePixel cur (deferredFlush (capFlush s)) := by simp [pixelOp, isRepeat, h]

theorem pixelOp_prev (cur : Pixel) (s : State) : (pixelOp cur s).prev = cur := by
  by_cases hc : cur = s.prev
  · rw [pixelOp_repeat hc]; simp [hc]
  · rw [pixelOp_other hc]; simp [codePixel]

theorem pixelOp_run (cur : Pixel) (s : State) :
    (pixelOp cur s).run = if cur = s.prev then (if s.run = 62 then 1 else s.run + 1) else 0 := by
  by_cases hc : cur = s.prev
  · rw [pixelOp_repeat hc, if_pos hc]
    by_cases hr : s.run = 62
    · rw [capFlush_at_cap hr, if_pos hr]; simp
    · rw [capFlush_below hr, if_neg hr]; simp
  · rw [pixelOp_other hc, if_neg hc, flushes_eq]
    split <;> simp [codePixel, *]

/-- The chunks one PIX_STEP emits (R80): none, a flushed RUN, the chunk of the pixel, or both. -/
def stepChunks (cur : Pixel) (s : State) : List Instr :=
  if cur = s.prev then (if s.run = 62 then [.run 61] else [])
  else (if s.run = 0 then [] else [.run (s.run - 1)]) ++ [selectChunk s.prev (cacheRead s (pixelHash cur)) cur]

theorem pixelOp_out (cur : Pixel) (s : State) : (pixelOp cur s).out = s.out ++ (stepChunks cur s).flatMap encode := by
  unfold stepChunks
  by_cases hc : cur = s.prev
  · rw [pixelOp_repeat hc, if_pos hc]
    by_cases hr : s.run = 62
    · rw [capFlush_at_cap hr, if_pos hr]; simp [hr]
    · rw [capFlush_below hr, if_neg hr]; simp
  · rw [pixelOp_other hc, if_neg hc, flushes_eq]
    split <;> simp [codePixel, cacheRead]

theorem commit_cacheRead_other {i j : BitVec 6} (p : Pixel) (s : State) (h : j ≠ i) :
    cacheRead (commit i p s) j = cacheRead s j := by
  have := cacheRead_cacheWrite_other p (setPrev p s) h.symm
  simpa [commit, cacheRead] using this

/-- A write of what a slot holds changes nothing (R86). -/
theorem cache_set_self (s : State) (i : BitVec 6) (p : Pixel) (h : cacheRead s i = p) :
    s.cache.set i.toFin p = s.cache := by
  apply Vector.ext
  intro j hj
  rw [Vector.getElem_set]
  split
  · next he => subst he; rw [← h]; rfl
  · rfl

/-- The cache after PIX_STEP: as before on a repeat, else the pixel in its slot. -/
theorem pixelOp_cacheRead (cur : Pixel) (s : State) (i : BitVec 6) :
    cacheRead (pixelOp cur s) i = if cur = s.prev then cacheRead s i
      else if i = pixelHash cur then cur else cacheRead s i := by
  by_cases hc : cur = s.prev
  · rw [pixelOp_repeat hc, if_pos hc]; simp [cacheRead]
  · rw [pixelOp_other hc, if_neg hc]
    by_cases hi : i = pixelHash cur
    · rw [if_pos hi]; subst hi; simp [codePixel, commit, cacheRead]
    · rw [if_neg hi]; simp only [codePixel]; rw [commit_cacheRead_other _ _ hi]; simp [cacheRead]

/-! ### The session and the sequencer -/

/-- ENC_END in one equation (R74). -/
theorem endOp_eq (s : State) : endOp s = { s with
    out := s.out ++ (if s.run = 0 then [] else encode (.run (s.run - 1))), run := 0, phase := .done } := by
  by_cases h : s.run = 0
  · simp only [endOp, deferredFlush_none h, if_pos h, List.append_nil]; simp [setPhase, h]
  · simp only [endOp, deferredFlush_some h, if_neg h, flushRun, emit, setRun, setPhase]

/-- ENC_START in one equation (R71, R151). -/
theorem startOp_eq (s : State) (w h : Word) (c : Byte) : startOp w h c s = { s with
    width := w, height := h, channels := c, out := encode (.header w h c), prev := Config.initPrev
    cache := Vector.replicate 64 Config.initSlot, run := 0, row := 0, col := 0
    phase := if w = 0 ∨ h = 0 then .done else .pixels } := by
  simp only [startOp]
  split
  · simp only [endOp]; rw [deferredFlush_none rfl]; rfl
  · rfl

/-- The sequencer's advance: the next column, the next row, or the end of the encode (R73). -/
theorem advance_cases (s : State) :
    (s.col.toNat + 1 < s.width.toNat ∧ advance s = setPosition s.row (s.col + 1) s) ∨
    (¬ s.col.toNat + 1 < s.width.toNat ∧ s.row.toNat + 1 < s.height.toNat ∧
      advance s = setPosition (s.row + 1) 0 s) ∨
    (¬ s.col.toNat + 1 < s.width.toNat ∧ ¬ s.row.toNat + 1 < s.height.toNat ∧ advance s = endOp s) := by
  by_cases h1 : s.col.toNat + 1 < s.width.toNat
  · exact .inl ⟨h1, by simp [advance, nextPosition, h1]⟩
  by_cases h2 : s.row.toNat + 1 < s.height.toNat
  · exact .inr (.inl ⟨h1, h2, by simp [advance, nextPosition, h1, h2]⟩)
  · exact .inr (.inr ⟨h1, h2, by simp [advance, nextPosition, h1, h2]⟩)

end Sys2Proof.Machine
end

