-- ==== Sys2Proof/Laws/Exec.lean ====
section
/-! SUPPORT. What an instruction's next state is, for the instructions that are not accepted in every phase, and
for DIFF and LUMA. -/

namespace Sys2Proof.Machine

/-- If PIX_STEP answers next, the phase was PIXELS. -/
theorem exec_pixStep_inv {s t : State} {cur : Pixel} (h : exec (.pixStep cur) s = .next t) :
    s.phase = .pixels ∧ t = advance (pixelOp cur s) := by
  simp only [exec, execPixStep] at h
  split at h
  · next hp => cases h; exact ⟨hp, rfl⟩
  · cases h
  · cases h

/-- If ENC_START answers next, the phase was not PIXELS. -/
theorem exec_encStart_inv {s t : State} {w h : Word} {c : Byte} (hx : exec (.encStart w h c) s = .next t) :
    s.phase ≠ .pixels ∧ t = startOp w h c s := by
  simp only [exec, execEncStart] at hx
  split at hx
  · cases hx
  · next hp => cases hx; exact ⟨by rw [hp]; decide, rfl⟩
  · next hp => cases hx; exact ⟨by rw [hp]; decide, rfl⟩

/-- If ENC_END answers next, the phase was not IDLE. -/
theorem exec_encEnd_inv {s t : State} (hx : exec .encEnd s = .next t) : s.phase ≠ .idle ∧ t = endOp s := by
  simp only [exec, execEncEnd] at hx
  split at hx
  · cases hx
  · next hp => cases hx; exact ⟨by rw [hp]; decide, rfl⟩
  · next hp => cases hx; exact ⟨by rw [hp]; decide, rfl⟩

/-- REP unfolds to a PIX_STEP and a shorter REP. -/
theorem exec_rep_succ (n : Nat) (r g b a : Byte) (s : State) :
    exec (.rep (n + 1) r g b a) s = match exec (.pixStep ⟨r, g, b, a⟩) s with
      | .next t => exec (.rep n r g b a) t
      | .fault f => .fault f
      | .refused q => .refused q := rfl

/-- A delta chunk is its pixel's emission, but for the counter of free values. -/
theorem emitDelta_eq (i : Instr) (dr dg db : Int) (s : State) :
    emitDelta i dr dg db s =
      { emitPixel i (pixelAt s.prev dr dg db (Config.freePixel s.free)) s with
        free := if pixelAtStated s.prev dr dg db then s.free else s.free + 1 } := by
  unfold emitDelta
  split
  · simp [emitPixel, commit, cacheWrite, setPrev, emit]
  · simp [emitPixel, commit, cacheWrite, setPrev, emit, drawFree]

/-- A pixel whose differences are given is the pixel the delta stands for, and nothing is free. -/
theorem pixelAt_of_diffs {p cur : Pixel} {dr dg db : Int} (f : Pixel) (hr : dr = channelDiff cur.r p.r)
    (hg : dg = channelDiff cur.g p.g) (hb : db = channelDiff cur.b p.b) (ha : cur.a = p.a) :
    pixelAt p dr dg db f = cur ∧ pixelAtStated p dr dg db = true := by
  subst hr hg hb
  simp [pixelAt, pixelAtStated, channelAt_channelDiff, ← ha]

end Sys2Proof.Machine
end

