-- ==== Sys2Proof/Laws/PerInstr.lean ====
section
/-! SUPPORT. The family of statements per instruction, EncLength: how many bytes the encoding of an instruction has
(spec/30_encoding.md R51, R55; operations by log entry 5), and that it is not empty but for REP 0. -/

namespace Sys2Proof.Laws

/-- The length of a record in bytes, as the tables give it. -/
def EncLength.bytes : Instr → Nat
  | .header .. => 14
  | .rgb .. => 4
  | .rgba .. => 5
  | .index .. | .diff .. | .run .. => 1
  | .luma .. => 2
  | .encStart .. => 10
  | .pixStep .. => 5
  | .encEnd | .nop => 1
  | .rep n .. => 5 * n

/-- The encoding of a well-formed instruction has the length of its record. -/
def EncLength.Statement (i : Instr) : Prop := i.wellFormed = true → (encode i).length = EncLength.bytes i

theorem EncLength.header (w h : Word) (c : Byte) : EncLength.Statement (.header w h c) := fun _ => rfl
theorem EncLength.rgb (r g b : Byte) : EncLength.Statement (.rgb r g b) := fun _ => rfl
theorem EncLength.rgba (r g b a : Byte) : EncLength.Statement (.rgba r g b a) := fun _ => rfl
theorem EncLength.index (idx : BitVec 6) : EncLength.Statement (.index idx) := fun _ => rfl
theorem EncLength.diff (fr fg fb : BitVec 2) : EncLength.Statement (.diff fr fg fb) := fun _ => rfl
theorem EncLength.luma (lg : BitVec 6) (lr lb : BitVec 4) : EncLength.Statement (.luma lg lr lb) := fun _ => rfl
theorem EncLength.run (rl : BitVec 6) : EncLength.Statement (.run rl) := fun _ => rfl
theorem EncLength.encStart (width height : Word) (channels : Byte) :
    EncLength.Statement (.encStart width height channels) := fun _ => rfl
theorem EncLength.pixStep (cur : Pixel) : EncLength.Statement (.pixStep cur) := fun _ => rfl
theorem EncLength.encEnd : EncLength.Statement .encEnd := fun _ => rfl
theorem EncLength.nop : EncLength.Statement .nop := fun _ => rfl
theorem EncLength.rep (n : Nat) (r g b a : Byte) : EncLength.Statement (.rep n r g b a) := by
  intro _
  simp [encode, EncLength.bytes, pixelBytes, Nat.mul_comm]

end Sys2Proof.Laws
end

