-- ==== Sys2Proof/Laws/Step.lean ====
section
/-! SUPPORT. What one step can do, once, for every invariant. -/

namespace Sys2Proof.Machine

/-- The machine's own test of a position is the claim's. -/
theorem inGrid_iff (s : State) : inGrid s s.row s.col = true ↔ Safety.positionInGrid s := by
  simp [inGrid, Safety.positionInGrid]

/-- The sequencer's choice: NOP outside PIXELS, in PIXELS a PIX_STEP on what the source answers, or a stop. -/
theorem sequencer_cases (s : State) :
    (s.phase ≠ .pixels ∧ sequencer s = .op .nop s) ∨
    (s.phase = .pixels ∧ Safety.positionInGrid s ∧ ∃ cur,
      Memory.read s.src (s.row.toNat, s.col.toNat) = some cur ∧ sequencer s = .op (.pixStep cur) s) ∨
    (s.phase = .pixels ∧ ∃ f, sequencer s = .fault f) := by
  unfold sequencer
  cases hp : s.phase with
  | idle => exact .inl ⟨by decide, rfl⟩
  | done => exact .inl ⟨by decide, rfl⟩
  | pixels =>
    by_cases hg : inGrid s s.row s.col = true
    · simp only [if_pos hg]
      cases hr : Memory.read s.src (s.row.toNat, s.col.toNat) with
      | none => exact .inr (.inr ⟨trivial, _, rfl⟩)
      | some cur => exact .inr (.inl ⟨trivial, (inGrid_iff s).1 hg, cur, rfl, rfl⟩)
    · simp only [if_neg hg]; exact .inr (.inr ⟨trivial, _, rfl⟩)

/-- What a step of a run of the hardware does, on the state less the event that was read: a reset, an ENC_START
outside PIXELS, a PIX_STEP in PIXELS, or nothing. -/
theorem step_inv {s t : State} (hp : Safety.portsOnly s) (h : step s = .next t) :
    ∃ es, (∀ e ∈ es, Safety.isPortEvent e = true) ∧
      (t = hardwareReset (setHost es s) ∨
      (∃ w ht c, s.phase ≠ .pixels ∧ t = startOp w ht c (setHost es s)) ∨
      (s.phase = .pixels ∧ ∃ cur, t = advance (pixelOp cur (setHost es s))) ∨
      t = setHost es s) := by
  have hseq : ∀ v : State, (match sequencer v with
      | .op i u => exec i u | .reset u => .next (hardwareReset u) | .fault f => .fault f | .refused q => .refused q) =
        .next t → (v.phase = .pixels ∧ ∃ cur, t = advance (pixelOp cur v)) ∨ t = v := by
    intro v hv
    rcases sequencer_cases v with ⟨_, hs⟩ | ⟨hp, _, cur, _, hs⟩ | ⟨_, f, hs⟩ <;> simp only [hs] at hv
    · cases hv; exact .inr rfl
    · exact .inl ⟨hp, cur, (exec_pixStep_inv hv).2⟩
    · cases hv
  simp only [step, fetch] at h
  cases hh : s.host with
  | nil =>
    simp only [hh] at h
    have hs : setHost [] s = s := by cases s; simp_all [setHost]
    refine ⟨[], by simp, ?_⟩
    rw [hs]
    exact .inr (.inr (hseq s h))
  | cons e es =>
    simp only [hh] at h
    refine ⟨es, fun e he => hp e (by rw [hh]; exact List.mem_cons_of_mem _ he), ?_⟩
    have hpe := hp e (by rw [hh]; simp)
    cases e with
    | rst => cases h; exact .inl rfl
    | start w ht c =>
      obtain ⟨a, b⟩ := exec_encStart_inv h
      exact .inr (.inl ⟨w, ht, c, a, b⟩)
    | answer r c p =>
      cases hph : s.phase with
      | pixels =>
        simp only [atPorts, answered, pixelRequest, setHost_phase, hph] at h
        split at h
        · next h' =>
          split at h'
          · cases h'; exact .inr (.inr (.inl ⟨rfl, p, (exec_pixStep_inv h).2⟩))
          · cases h'
        · next h' => split at h' <;> cases h'
        · next h' => split at h' <;> cases h'
        · cases h
      | idle => simp only [atPorts, answered, pixelRequest, setHost_phase, hph] at h; cases h
      | done => simp only [atPorts, answered, pixelRequest, setHost_phase, hph] at h; cases h
    | take =>
      by_cases hd : doneOutput (setHost es s) = true
      · simp only [atPorts, if_pos hd] at h; cases h; exact .inr (.inr (.inr rfl))
      · simp only [atPorts, if_neg hd] at h; cases h
    | wait => cases h; exact .inr (.inr (.inr rfl))
    | go => exact .inr (.inr (hseq (setHost es s) h))
    | word => simp [Safety.isPortEvent] at hpe

/-- No `word` is pending after reset. -/
theorem reset_portsOnly : Safety.portsOnly State.reset := by intro e he; simp [State.reset] at he

end Sys2Proof.Machine
end

