-- ==== Sys2Proof/Tests/Slice0.lean ====
section
/-! SUPPORT. The model's own tests. Expected values are from spec/95_test_vectors.md and the examples of the rules,
named in each comment. The last part shows, for each statement with hypotheses, a state that meets them. -/

namespace Sys2Proof.Tests

open Sys2Proof.Machine

/-! ### Helpers -/

/-- The state of spec/95_test_vectors.md part 2: PIXELS, an empty cache, and a grid of two pixels, so that the step
under test is not the last. -/
def mid (prev : Pixel) (run : BitVec 6) : State :=
  { startOp 2 1 4 State.reset with prev := prev, run := run, out := [] }

/-- The same at the last position of the grid. -/
def last (prev : Pixel) (run : BitVec 6) : State := setPosition 0 1 (mid prev run)

def grey : Pixel := ⟨100, 100, 100, 255⟩

/-- The bytes and the run after an instruction that answers a next state. -/
def after (i : Instr) (s : State) : Option (List Byte × BitVec 6) :=
  match exec i s with
  | .next t => some (t.out, t.run)
  | .fault _ => none
  | .refused _ => none

/-- `prev` and one cache slot after an instruction that answers a next state. -/
def held (i : Instr) (s : State) (idx : BitVec 6) : Option (Pixel × Pixel) :=
  match exec i s with
  | .next t => some (t.prev, cacheRead t idx)
  | .fault _ => none
  | .refused _ => none

/-- The phase and position after an instruction that answers a next state. -/
def place (i : Instr) (s : State) : Option (Phase × Word × Word) :=
  match exec i s with
  | .next t => some (t.phase, t.row, t.col)
  | .fault _ => none
  | .refused _ => none

/-- The refusal, if there is one. -/
def refusal : Host.Outcome State Fault Refusal → Option Refusal
  | .refused q => some q
  | .next _ => none
  | .fault _ => none

/-! ### WellFormed -/

/-- R57 (a): the longest RUN exists, the two lengths behind it do not. -/
theorem test_wellFormed_run :
    (Instr.run 61).wellFormed = true ∧ (Instr.run 62).wellFormed = false ∧ (Instr.run 63).wellFormed = false := by
  decide

/-- R57 (a): a RUN that does not exist stops by its name. -/
theorem test_run_62_stops : refusal (exec (.run 62) (mid grey 0)) = some .runLengthDoesNotExist := by decide

/-! ### Decoding: one word for each constructor, written out from R51, R52, R58 -/

/-- R72's example, header of a 2 by 1 image. -/
theorem test_decode_header :
    decode .hdr [0x71, 0x6F, 0x69, 0x66, 0, 0, 0, 2, 0, 0, 0, 1, 4, 0] = .ok (.header 2 1 4, []) := by decide

/-- The table's own order of HEADER's bits, first byte highest. -/
theorem test_decode_header_match :
    decodeTableWord 112 0x716F6966000000020000000104_00 = some (.header 2 1 4) := by decide

/-- R105's example. -/
theorem test_decode_rgb : decode .chunk [0xFE, 0x0A, 0x14, 0x1E] = .ok (.rgb 10 20 30, []) := by decide

/-- R106's example. -/
theorem test_decode_rgba : decode .chunk [0xFF, 0, 0, 0, 0x80] = .ok (.rgba 0 0 0 128, []) := by decide

/-- Tag 00, index 001001 (R102's example). -/
theorem test_decode_index : decode .chunk [0b00001001] = .ok (.index 9, []) := by decide

/-- Tag 01, fields 11 10 01 (R103's example). -/
theorem test_decode_diff : decode .chunk [0b01111001] = .ok (.diff 3 2 1, []) := by decide

/-- Tag 10, 101000, then 1010 0110 (R104's example, LUMA 8 2 -2). -/
theorem test_decode_luma : decode .chunk [0b10101000, 0b10100110] = .ok (.luma 40 10 6, []) := by decide

/-- Tag 11, 000001 (R101's example, a run of 2), and the longest run 0xFD (R54). -/
theorem test_decode_run :
    decode .chunk [0b11000001] = .ok (.run 1, []) ∧ decode .chunk [0b11111101] = .ok (.run 61, []) := by decide

/-- Code 01 and its operands (R58; their layout is log entry 5). -/
theorem test_decode_encStart :
    decode .uop [0b01, 0, 0, 0, 2, 0, 0, 0, 1, 4] = .ok (.encStart 2 1 4, []) := by decide

/-- Code 10 and the pixel word, red first (R58, R31). -/
theorem test_decode_pixStep : decode .uop [0b10, 1, 2, 3, 4] = .ok (.pixStep ⟨1, 2, 3, 4⟩, []) := by decide

/-- Codes 11 and 00 (R58). -/
theorem test_decode_encEnd_nop :
    decode .uop [0b11] = .ok (.encEnd, []) ∧ decode .uop [0b00] = .ok (.nop, []) := by decide

/-- REP has no code: its encoding is that of its PIX_STEPs (R59). -/
theorem test_encode_rep : encode (.rep 2 1 2 3 4) = encode (.pixStep ⟨1, 2, 3, 4⟩) ++ encode (.pixStep ⟨1, 2, 3, 4⟩) := by
  decide

/-- What is refused, by name: a wrong magic, a wrong colorspace, a cut record, a code of more than two bits. -/
theorem test_decode_refuses :
    decode .hdr [0x71, 0x6F, 0x69, 0x67, 0, 0, 0, 2, 0, 0, 0, 1, 4, 0] = .error .badMagic ∧
    decode .hdr [0x71, 0x6F, 0x69, 0x66, 0, 0, 0, 2, 0, 0, 0, 1, 4, 1] = .error .badColorspace ∧
    decode .chunk [0xFE, 1, 2] = .error .truncated ∧ decode .uop [0b100] = .error .badOperationCode := by decide

/-- The edges of every range of R54. -/
theorem test_first_byte_edges :
    (decodeChunk [0x00, 0, 0, 0, 0]).isOk ∧ decodeChunk [0x3F] = .ok (.index 63, []) ∧
    decodeChunk [0x40] = .ok (.diff 0 0 0, []) ∧ decodeChunk [0x7F] = .ok (.diff 3 3 3, []) ∧
    decodeChunk [0x80, 0xFF] = .ok (.luma 0 15 15, []) ∧ decodeChunk [0xBF, 0x00] = .ok (.luma 63 0 0, []) ∧
    decodeChunk [0xC0] = .ok (.run 0, []) ∧ decodeChunk [0xFD] = .ok (.run 61, []) ∧
    decodeChunk [0xFE, 0xFF, 0xFE, 0] = .ok (.rgb 255 254 0, []) ∧
    decodeChunk [0xFF, 0xFE, 0xFF, 0, 1] = .ok (.rgba 254 255 0 1, []) := by decide

/-! ### One step per kind of chunk, through PIX_STEP and by itself -/

/-- Vector L14: 250 to 4 is no DIFF and no LUMA, there is no wrap. -/
theorem test_pixStep_rgb : after (.pixStep ⟨4, 4, 4, 255⟩) (mid ⟨250, 250, 250, 255⟩ 0) = some ([0xFE, 4, 4, 4], 0) := by
  decide

/-- RGB by itself keeps the alpha of `prev`, here 7 (log entry 6). -/
theorem test_rgb : held (.rgb 64 0 0) (mid ⟨1, 2, 3, 7⟩ 0) (pixelHash ⟨64, 0, 0, 7⟩) =
    some (⟨64, 0, 0, 7⟩, ⟨64, 0, 0, 7⟩) := by decide

/-- Vector S-9: the six bytes, RUN 62 and then RGBA. -/
theorem test_pixStep_rgba : after (.pixStep ⟨1, 2, 3, 4⟩) (mid grey 62) = some ([0xFD, 0xFF, 1, 2, 3, 4], 0) := by
  decide

/-- RGBA by itself leaves `run` alone and writes the slot of its own pixel: `hash((10,20,30,255)) = 9` (R100). -/
theorem test_rgba : after (.rgba 10 20 30 255) (mid grey 5) = some ([0xFF, 10, 20, 30, 255], 5) ∧
    held (.rgba 10 20 30 255) (mid grey 5) 9 = some (⟨10, 20, 30, 255⟩, ⟨10, 20, 30, 255⟩) := by decide

/-- Vector S-2: INDEX 56 although alpha changed by -248. -/
theorem test_pixStep_index : after (.pixStep ⟨101, 101, 101, 7⟩) (cacheWrite 56 ⟨101, 101, 101, 7⟩ (mid grey 0)) =
    some ([0x38], 0) := by decide

/-- Vector S-10: an untouched slot is (0,0,0,0), and INDEX 0 makes that pixel `prev`. -/
theorem test_index : held (.index 0) (mid grey 0) 0 = some (⟨0, 0, 0, 0⟩, ⟨0, 0, 0, 0⟩) := by decide

/-- Vectors D7 and S-3: the order of the fields, and a RUN of 5 before DIFF. -/
theorem test_pixStep_diff : after (.pixStep ⟨98, 101, 99, 255⟩) (mid grey 0) = some ([0x4D], 0) ∧
    after (.pixStep ⟨101, 101, 101, 255⟩) (mid grey 5) = some ([0xC4, 0x7F], 0) := by decide

/-- DIFF 1 0 -1 by itself, from R103's example: (10,20,30,255) to (11,20,29,255), whose hash is 5 (R80). -/
theorem test_diff : held (.diff 3 2 1) (mid ⟨10, 20, 30, 255⟩ 0) 5 =
    some (⟨11, 20, 29, 255⟩, ⟨11, 20, 29, 255⟩) := by decide

/-- Vectors L7 and L8: dr - dg = 7 and db - dg = -8 are LUMA, dr - dg = 9 is not. -/
theorem test_pixStep_luma : after (.pixStep ⟨107, 100, 92, 255⟩) (mid grey 0) = some ([0xA0, 0xF0], 0) ∧
    after (.pixStep ⟨140, 131, 131, 255⟩) (mid grey 0) = some ([0xFE, 0x8C, 0x83, 0x83], 0) := by decide

/-- LUMA 8 2 -2 by itself, from R104's example: (10,20,30,255) to (20,28,36,255). -/
theorem test_luma : after (.luma 40 10 6) (mid ⟨10, 20, 30, 255⟩ 0) = some ([0xA8, 0xA6], 0) ∧
    held (.luma 40 10 6) (mid ⟨10, 20, 30, 255⟩ 0) (pixelHash ⟨20, 28, 36, 255⟩) =
      some (⟨20, 28, 36, 255⟩, ⟨20, 28, 36, 255⟩) := by decide

/-- Vectors S-4 and S-6: the cap flush before a repeat, and the counter resting at 62. -/
theorem test_pixStep_run : after (.pixStep grey) (mid grey 62) = some ([0xFD], 1) ∧
    after (.pixStep grey) (mid grey 61) = some ([], 62) := by decide

/-- R101: RUN 2 is 0xC1 and clears the counter. -/
theorem test_run : after (.run 1) (mid grey 2) = some ([0xC1], 0) := by decide

/-- The header by itself, and R72's corner: a width of 2^32 - 1. -/
theorem test_header : after (.header 0xFFFFFFFF 0 3) (mid grey 5) =
    some ([0x71, 0x6F, 0x69, 0x66, 255, 255, 255, 255, 0, 0, 0, 0, 3, 0], 5) := by decide

/-! ### The session -/

/-- R71's example, ENC_START(2, 1, 4). -/
theorem test_encStart : after (.encStart 2 1 4) State.reset =
      some ([0x71, 0x6F, 0x69, 0x66, 0, 0, 0, 2, 0, 0, 0, 1, 4, 0], 0) ∧
    place (.encStart 2 1 4) State.reset = some (.pixels, 0, 0) ∧
    held (.encStart 2 1 4) State.reset 53 = some (⟨0, 0, 0, 255⟩, ⟨0, 0, 0, 0⟩) := by decide

/-- Program P9: `START 5 0 4` is the header only, and the phase DONE. -/
theorem test_encStart_empty : place (.encStart 5 0 4) State.reset = some (.done, 0, 0) ∧
    after (.encStart 5 0 4) State.reset =
      some ([0x71, 0x6F, 0x69, 0x66, 0, 0, 0, 5, 0, 0, 0, 0, 4, 0], 0) := by decide

/-- R74's corner: 62 is one byte 0xFD. -/
theorem test_encEnd : after .encEnd (mid grey 62) = some ([0xFD], 0) ∧
    after .encEnd (mid grey 0) = some ([], 0) := by decide

/-- The last PIX_STEP ends the encode in the same step (R73), a pixel before it moves one column on. -/
theorem test_pixStep_place : place (.pixStep grey) (last grey 1) = some (.done, 0, 1) ∧
    after (.pixStep grey) (last grey 1) = some ([0xC1], 0) ∧
    place (.pixStep grey) (mid grey 1) = some (.pixels, 0, 1) := by decide

/-- R73: behind the last column stands the first of the next row. -/
theorem test_pixStep_row : place (.pixStep grey) { last grey 1 with height := 2 } = some (.pixels, 1, 0) := by decide

/-- Program P2: two repeats of the initial `prev` in a grid of two are 0xC1. -/
theorem test_rep : after (.rep 2 0 0 0 255) (mid ⟨0, 0, 0, 255⟩ 0) = some ([0xC1], 0) ∧
    place (.rep 2 0 0 0 255) (mid ⟨0, 0, 0, 255⟩ 0) = some (.done, 0, 1) := by decide

/-- A pixel more than the grid has is one nobody asked for (R133 (b)). -/
theorem test_rep_beyond : refusal (exec (.rep 3 0 0 0 255) (mid ⟨0, 0, 0, 255⟩ 0)) = some .pixelNotRequested := by
  decide

/-- NOP leaves everything as it is, here in PIXELS (log entry 16). -/
theorem test_nop : after .nop (mid grey 5) = some ([], 5) := by decide

/-! ### The machine -/

/-- A start command at the port runs ENC_START (R71, R153). -/
theorem test_step_start : (match step { State.reset with host := [.start 5 0 4] } with
    | .next t => (t.phase, t.out.length) | .fault _ => (.idle, 0) | .refused _ => (.idle, 0)) = (Phase.done, 14) := by
  decide

/-- A table word runs as the first instruction after reset, in a phase that may issue it. -/
theorem test_step_word : (match step (State.reset.withFetchWord 40 0x0403020102) with
    | .next t => (t.phase, t.prev) | .fault _ => (.idle, ⟨0, 0, 0, 0⟩) | .refused _ => (.idle, ⟨0, 0, 0, 0⟩)) =
      (Phase.done, (⟨1, 2, 3, 4⟩ : Pixel)) := by decide

/-- R143: a source that does not answer leaves CORE stuck. -/
theorem test_step_silent : (match step (mid grey 0) with
    | .fault f => some f | .next _ => none | .refused _ => none) = some Fault.pixelSourceSilent := by decide

/-! ### Witnesses: states and operands that meet the hypotheses of the statements -/

/-- DecodeOfEncode, NotationReadsBack: an instruction that exists, has a code and a line. -/
theorem test_witness_encoding : (Instr.run 61).wellFormed = true ∧ (Instr.run 61).isPseudo = false ∧
    Instr.run 61 ≠ .nop := by decide

/-- EncodeOfDecode, PlacedWordIsRun: bytes and words that decode. -/
theorem test_witness_decode : decode .chunk [0x3F, 0x80] = .ok (.index 63, [0x80]) ∧
    decodeTableWord 8 0x3F = some (.index 63) ∧ decodeTableWord 8 0x03 = some .encEnd := by decide

/-- FirstByteMap, ChunkLengthFromFirstByte: first bytes at both ends of each range, and a cut record. -/
theorem test_witness_first_byte :
    (0x3F#8).toNat ≤ 0x3F ∧ 0x40 ≤ (0x40#8).toNat ∧ (0x7F#8).toNat ≤ 0x7F ∧ 0x80 ≤ (0x80#8).toNat ∧
    (0xBF#8).toNat ≤ 0xBF ∧ 0xC0 ≤ (0xC0#8).toNat ∧ (0xFD#8).toNat ≤ 0xFD ∧ (0xFE#8).toNat = 0xFE ∧
    (0xFF#8).toNat = 0xFF ∧ [1, 2, 3, (4 : Byte)].length ≥ 4 ∧ [1, 2, (3 : Byte)].length < 4 := by decide

/-- FieldAssembly: a difference at each bound of each field, and run lengths at both ends. -/
theorem test_witness_fields : (biased 2 2 (-2)).toNat = 0 ∧ (biased 2 2 1).toNat = 3 ∧ (biased 6 32 (-32)).toNat = 0 ∧
    (biased 6 32 31).toNat = 63 ∧ (biased 4 8 (-8)).toNat = 0 ∧ (biased 4 8 7).toNat = 15 ∧
    ((1 : BitVec 6) - 1).toNat = 0 ∧ ((62 : BitVec 6) - 1).toNat = 61 := by decide

/-- StreamReadsBack: chunks that exist. -/
theorem test_witness_stream : Safety.chunksOk [.run 61, .index 63, .luma 63 15 15, .rgba 255 255 255 255] := by
  unfold Safety.chunksOk; decide

/-- HashRule: a pixel that is no repeat, one in its slot and one not. -/
theorem test_witness_hash : (⟨0, 0, 0, 0⟩ : Pixel) ≠ (mid grey 0).prev ∧
    cacheRead (mid grey 0) (pixelHash ⟨0, 0, 0, 0⟩) = ⟨0, 0, 0, 0⟩ ∧
    cacheRead (mid grey 0) (pixelHash ⟨1, 0, 0, 0⟩) ≠ ⟨1, 0, 0, 0⟩ ∧ (63 : BitVec 6) ≠ pixelHash ⟨0, 0, 0, 0⟩ := by
  decide

/-- DifferencesDoNotWrap: a channel from 255 to 0 and back, a pixel in each range. -/
theorem test_witness_diffs : (pixelDiffs ⟨0, 0, 0, 0⟩ ⟨255, 255, 255, 255⟩).dr = -255 ∧
    (pixelDiffs ⟨255, 0, 0, 0⟩ ⟨0, 0, 0, 0⟩).dr = 255 ∧
    selectChunk grey ⟨0, 0, 0, 0⟩ ⟨98, 101, 100, 255⟩ = .diff 0 3 2 ∧
    selectChunk grey ⟨0, 0, 0, 0⟩ ⟨60, 68, 60, 255⟩ = .luma 0 0 0 ∧
    selectChunk grey ⟨0, 0, 0, 0⟩ ⟨138, 131, 138, 255⟩ = .luma 63 15 15 := by decide

/-- SelectorPriority, NeverProduced, ChunkOfOnePixel: no repeat, and one pixel for each of the five cases: a hit, both
ends of DIFF, both ends of LUMA, the first values outside, another alpha. -/
theorem test_witness_selector :
    let s := mid grey 0
    (s.phase = .pixels ∧ (⟨0, 0, 0, 0⟩ : Pixel) ≠ s.prev ∧ cacheRead s (pixelHash ⟨0, 0, 0, 0⟩) = ⟨0, 0, 0, 0⟩) ∧
    (selectChunk s.prev (cacheRead s (pixelHash ⟨98, 98, 98, 255⟩)) ⟨98, 98, 98, 255⟩ = .diff 0 0 0) ∧
    (selectChunk s.prev (cacheRead s (pixelHash ⟨101, 101, 101, 255⟩)) ⟨101, 101, 101, 255⟩ = .diff 3 3 3) ∧
    (selectChunk s.prev (cacheRead s (pixelHash ⟨60, 68, 60, 255⟩)) ⟨60, 68, 60, 255⟩ = .luma 0 0 0) ∧
    (selectChunk s.prev (cacheRead s (pixelHash ⟨138, 131, 138, 255⟩)) ⟨138, 131, 138, 255⟩ = .luma 63 15 15) ∧
    (selectChunk s.prev (cacheRead s (pixelHash ⟨108, 100, 100, 255⟩)) ⟨108, 100, 100, 255⟩ = .rgb 108 100 100) ∧
    (selectChunk s.prev (cacheRead s (pixelHash ⟨100, 100, 100, 254⟩)) ⟨100, 100, 100, 254⟩ =
      .rgba 100 100 100 254) := by decide

/-- CapFlush, RepeatOnlyCounts, DeferredFlush, StateUpdate, BytesOfOneStep, PixelOpRefinesReference,
PixStepIsItsChunks, PixStepOnlyWhenRequested: phase PIXELS with the counter at 0, 1, 61 and 62, a repeat and another
pixel; and the phase IDLE. -/
theorem test_witness_run : (mid grey 62).phase = .pixels ∧ (mid grey 62).run = 62 ∧ grey = (mid grey 62).prev ∧
    (⟨1, 2, 3, 4⟩ : Pixel) ≠ (mid grey 62).prev ∧ (mid grey 61).run = 61 ∧ (mid grey 1).run ≠ 0 ∧
    (mid grey 1).run ≠ 62 ∧ (mid grey 0).run = 0 ∧ (mid grey 62).run.toNat ≤ 62 ∧ (mid grey 61).run.toNat < 62 ∧
    State.reset.phase ≠ .pixels := by decide

/-- StateUpdate, PixStepFrame: PIX_STEP and REP that answer a next state, and another slot. -/
theorem test_witness_pixStep : after (.pixStep grey) (mid grey 0) = some ([], 1) ∧
    after (.rep 1 100 100 100 255) (mid grey 0) = some ([], 1) ∧ (0 : BitVec 6) ≠ pixelHash grey := by decide

/-- RepIsItsSteps: a position in the grid, at its start and at its end, and as many pixels as are left, or one more. -/
theorem test_witness_rep : Safety.positionInGrid (mid grey 0) ∧
    Safety.position (mid grey 0) + 2 ≤ Safety.gridSize (mid grey 0) ∧
    Safety.gridSize (mid grey 0) < Safety.position (mid grey 0) + 3 ∧ Safety.positionInGrid (last grey 0) ∧
    Safety.position (last grey 0) + 1 ≤ Safety.gridSize (last grey 0) := by
  unfold Safety.positionInGrid; decide

/-- DeltasEmit: for DIFF a pixel with a difference at each bound, for LUMA one at all lower and one at all upper
bounds. -/
theorem test_witness_deltas :
    let s := mid grey 0
    let diffTo : Pixel := ⟨98, 101, 100, 255⟩
    let lumaLow : Pixel := ⟨60, 68, 60, 255⟩
    let lumaHigh : Pixel := ⟨138, 131, 138, 255⟩
    (diffTo.a = s.prev.a ∧ (diffTo.r.toNat : Int) - s.prev.r.toNat = (0#2).toNat - 2 ∧
      (diffTo.g.toNat : Int) - s.prev.g.toNat = (3#2).toNat - 2 ∧
      (diffTo.b.toNat : Int) - s.prev.b.toNat = (2#2).toNat - 2) ∧
    (lumaLow.a = s.prev.a ∧ (lumaLow.g.toNat : Int) - s.prev.g.toNat = (0#6).toNat - 32 ∧
      (lumaLow.r.toNat : Int) - s.prev.r.toNat = (0#6).toNat - 32 + ((0#4).toNat - 8) ∧
      (lumaLow.b.toNat : Int) - s.prev.b.toNat = (0#6).toNat - 32 + ((0#4).toNat - 8)) ∧
    (lumaHigh.a = s.prev.a ∧ (lumaHigh.g.toNat : Int) - s.prev.g.toNat = (63#6).toNat - 32 ∧
      (lumaHigh.r.toNat : Int) - s.prev.r.toNat = (63#6).toNat - 32 + ((15#4).toNat - 8) ∧
      (lumaHigh.b.toNat : Int) - s.prev.b.toNat = (63#6).toNat - 32 + ((15#4).toNat - 8)) := by decide

/-- DeltasOutOfRangeStillRun: from a `prev` of 0 no pixel lies 2 below it in red, and green and blue are in range. -/
theorem test_witness_deltas_out : (∀ cur : Pixel, ¬ ((cur.r.toNat : Int) = (mid ⟨0, 0, 255, 255⟩ 0).prev.r.toNat + (-2) ∧
      (cur.g.toNat : Int) = (mid ⟨0, 0, 255, 255⟩ 0).prev.g.toNat + 1 ∧
      (cur.b.toNat : Int) = (mid ⟨0, 0, 255, 255⟩ 0).prev.b.toNat + 0)) ∧
    (0 : Int) ≤ (mid ⟨0, 0, 255, 255⟩ 0).prev.g.toNat + 1 ∧ (-2 : Int) = (0#2).toNat - 2 ∧
    (1 : Int) = (3#2).toNat - 2 ∧ (0 : Int) = (2#2).toNat - 2 := by
  refine ⟨?_, by decide, by decide, by decide, by decide⟩
  intro cur h
  have e : (mid ⟨0, 0, 255, 255⟩ 0).prev.r.toNat = 0 := rfl
  rw [e] at h
  omega

/-- RunEmits: the last length that exists and the first that does not. -/
theorem test_witness_run_length : (61 : BitVec 6).toNat ≤ 61 ∧ 62 ≤ (62 : BitVec 6).toNat := by decide

/-- ChunkFrame: a chunk that answers a next state, a byte already in `out`, another slot. -/
theorem test_witness_chunk : (Instr.rgb 64 0 0).isChunk = true ∧
    after (.rgb 64 0 0) { mid grey 0 with out := [1] } = some ([1, 0xFE, 64, 0, 0], 0) ∧
    (1 : BitVec 6) ≠ pixelHash ⟨64, 0, 0, 255⟩ := by decide

/-- EncStartMakesFreshState, EncStartForgets, EmptyGridIsHeaderOnly, EncEndFlushes: phases IDLE, PIXELS and DONE, two
states with the same surroundings and different histories, an empty grid. -/
theorem test_witness_session : State.reset.phase = .idle ∧ (mid grey 0).phase = .pixels ∧
    (endOp (mid grey 5)).phase = .done ∧ (endOp (mid grey 5)).src = State.reset.src ∧
    (endOp (mid grey 5)).host = State.reset.host ∧ (endOp (mid grey 5)).free = State.reset.free ∧
    (endOp (mid grey 5)).out ≠ State.reset.out ∧ Safety.isPortEvent (.start 0 5 4) = true := by decide

/-- SessionFrame: HEADER, ENC_START, ENC_END and NOP that answer a next state. -/
theorem test_witness_frame : (after (.header 2 1 4) (mid grey 3)).isSome ∧ (after (.encStart 2 1 4) State.reset).isSome ∧
    (after .encEnd (mid grey 3)).isSome ∧ (after .nop (mid grey 3)).isSome := by decide

/-- SequencerIsRowMajor: the source answers, and does not; the last column with a row behind it and without one. -/
theorem test_witness_sequencer : (mid grey 0).host = [] ∧
    Memory.read [((0, 0), grey)] ((mid grey 0).row.toNat, (mid grey 0).col.toNat) = some grey ∧
    Memory.read (mid grey 0).src (0, 0) = none ∧ (mid grey 0).col.toNat + 1 < (mid grey 0).width.toNat ∧
    ¬ (last grey 0).col.toNat + 1 < (last grey 0).width.toNat ∧
    ¬ (last grey 0).row.toNat + 1 < (last grey 0).height.toNat ∧
    ({ last grey 0 with height := 2 } : State).row.toNat + 1 < ({ last grey 0 with height := 2 } : State).height.toNat ∧
    Safety.position (mid grey 0) + 1 < Safety.gridSize (mid grey 0) ∧
    Safety.position (last grey 0) + 1 = Safety.gridSize (last grey 0) := by decide

/-- StepRunsTheInstruction, PortEvents, HardwareReset: each event, with the position that is asked for, another
position, and a phase in which nothing is asked for. -/
theorem test_witness_events : ({ mid grey 0 with host := [.answer 0 0 grey] } : State).host = [.answer 0 0 grey] ∧
    (0 : Word) = (mid grey 0).row ∧ (0 : Word) = (mid grey 0).col ∧ ¬ ((1 : Word) = (mid grey 0).row) ∧
    (endOp (mid grey 0)).phase = .done ∧ State.reset.phase ≠ .done ∧
    decode .uop [0b11] = .ok (.encEnd, []) ∧ ({ State.reset with host := [.rst] } : State).host = [.rst] := by decide

/-- The state of an encode in PIXELS that has seen nothing yet. -/
def started : State := startOp 2 1 4 State.reset

/-- The same when it is over: program P2 with its answers from the source. -/
def finished : State := endOp (setRun 2 (setPosition 0 1 started))

/-- StepKeepsInvariant: a state in PIXELS that has the invariant and answers a next state at the port. -/
theorem test_witness_inv : Safety.Inv { started with host := [.answer 0 0 grey] } ∧
    (match step { started with host := [.answer 0 0 grey] } with
      | .next _ => true | .fault _ => false | .refused _ => false) = true := by
  refine ⟨⟨?_, by decide, fun _ => ⟨by decide, by decide, ?_, by decide, ?_, by decide⟩⟩, by decide⟩
  · unfold Safety.portsOnly; decide
  · right; decide
  · intro _; unfold Safety.positionInGrid; decide

/-- StepKeepsAccount, StepKeepsChunksApart: no chunk yet, and no pixel. -/
theorem test_witness_account : Safety.accounted started ∧ Safety.chunksApart started := by
  refine ⟨⟨[], by simp [Safety.chunksOk], by decide, by decide⟩,
    ⟨[], by simp [Safety.chunksOk], by decide, by simp, by simp, by simp, by simp⟩⟩

/-- LengthLaws: the end of program P2. -/
theorem test_witness_length : finished.phase = .done ∧ finished.run = 0 ∧ Safety.accounted finished := by
  refine ⟨by decide, by decide, [.run 1], ?_, by decide, by decide⟩
  unfold Safety.chunksOk; decide

/-- DoneKeepsResult: DONE, with the Sink at the port and with nothing. -/
theorem test_witness_done : Safety.portsOnly { finished with host := [.take] } ∧ finished.phase = .done ∧
    (match step { finished with host := [.take] } with
      | .next _ => true | .fault _ => false | .refused _ => false) = true := by
  refine ⟨?_, by decide, by decide⟩
  unfold Safety.portsOnly; decide

/-- OutOnlyGrows, LatchesAndSourceHeld, StepKeepsMemory: an instruction and a step that answer a next state. -/
theorem test_witness_next : (after (.index 5) (mid grey 0)).isSome ∧ (match step State.reset with
    | .next _ => true | .fault _ => false | .refused _ => false) = true := by decide

/-- NoExceptions: each of the refusals it allows. -/
theorem test_witness_refusals : refusal (exec (.encStart 1 1 4) (mid grey 0)) = some .startInPixels ∧
    refusal (exec .encEnd State.reset) = some .endInIdle ∧
    refusal (exec (.pixStep grey) State.reset) = some .pixelNotRequested ∧
    refusal (exec (.rep 1 0 0 0 0) State.reset) = some .pixelNotRequested ∧
    refusal (exec (.run 63) State.reset) = some .runLengthDoesNotExist := by decide

/-- OpaqueImages: the state after ENC_START, with a pixel of alpha 255 whose slot is untouched. -/
theorem test_witness_opaque : Safety.opaqueOnly started ∧ grey.a = 255 ∧
    cacheRead started (pixelHash grey) = Config.initSlot := by
  unfold Safety.opaqueOnly; decide

/-- BodyIgnoresShapeAndChannels: another shape, another `channels` and another `out`. -/
theorem test_witness_body : (startOp 1 2 3 State.reset).prev = started.prev ∧
    (startOp 1 2 3 State.reset).run = started.run ∧ (startOp 1 2 3 State.reset).cache = started.cache ∧
    (startOp 1 2 3 State.reset).width ≠ started.width ∧ (startOp 1 2 3 State.reset).out ≠ started.out := by decide

/-- A source that holds the two pixels of the grid. -/
def source : List PixCell := [((0, 0), grey), ((0, 1), grey)]

/-- EncodeEnds: an encode in PIXELS that has the invariant, with nothing more at the ports and a source that answers
every position of the grid. -/
theorem test_witness_ends :
    let s := { started with src := source }
    Safety.Inv s ∧ s.phase = .pixels ∧ s.host = [] ∧
    ∀ row col, row < s.height.toNat → col < s.width.toNat → (Memory.read s.src (row, col)).isSome = true := by
  refine ⟨⟨?_, by decide, fun _ => ⟨by decide, by decide, ?_, by decide, ?_, by decide⟩⟩, by decide, by decide, ?_⟩
  · unfold Safety.portsOnly; decide
  · right; decide
  · intro _; unfold Safety.positionInGrid; decide
  · intro row col h h'
    have h : row < 1 := h
    have h' : col < 2 := h'
    interval_cases row
    interval_cases col <;> decide

/-- EncodeIsTheReference: after reset, with a start command at the port and a source that holds the grid. -/
theorem test_witness_encode :
    let s := { State.reset with src := source, host := [.start 2 1 4] }
    s.phase ≠ .pixels ∧ s.host = [.start 2 1 4] ∧
    ∀ row col, row < (1 : Word).toNat → col < (2 : Word).toNat → Memory.read s.src (row, col) = some grey := by
  refine ⟨by decide, rfl, ?_⟩
  intro row col h h'
  have h : row < 1 := h
  have h' : col < 2 := h'
  interval_cases row
  interval_cases col <;> decide

end Sys2Proof.Tests
end

section
/-! The first-byte map of the chunks and the bytes of their fields (spec/30_encoding.md R53, R54). -/

namespace Sys2Proof

/-! ### The decoder: one equation per kind of first byte (R54) -/

/-- A first byte below 0xFE is neither 8-bit tag, and its 2-bit tag is its value divided by 64. -/
theorem shortTag_of_range {t : Byte} (k : BitVec 2) (h : t.toNat < 0xFE) (hk : t.toNat / 64 = k.toNat) :
    t ≠ 0xFE#8 ∧ t ≠ 0xFF#8 ∧ t.extractLsb' 6 2 = k := by
  refine ⟨?_, ?_, BitVec.eq_of_toNat_eq ?_⟩
  · rintro rfl; simp at h
  · rintro rfl; simp at h
  · have := t.isLt
    rw [BitVec.extractLsb'_toNat, Nat.shiftRight_eq_div_pow]
    omega

theorem decodeChunk_index {t : Byte} (rest : List Byte) (h : t.toNat ≤ 0x3F) :
    decodeChunk (t :: rest) = .ok (.index (t.extractLsb' 0 6), rest) := by
  obtain ⟨hFE, hFF, tag⟩ := shortTag_of_range (t := t) 0b00#2 (by omega) (by simp; omega)
  simp [decodeChunk, hFE, hFF, tag]

theorem decodeChunk_diff {t : Byte} (rest : List Byte) (h : 0x40 ≤ t.toNat) (h' : t.toNat ≤ 0x7F) :
    decodeChunk (t :: rest) =
      .ok (.diff (t.extractLsb' 4 2) (t.extractLsb' 2 2) (t.extractLsb' 0 2), rest) := by
  obtain ⟨hFE, hFF, tag⟩ := shortTag_of_range (t := t) 0b01#2 (by omega) (by simp; omega)
  simp [decodeChunk, hFE, hFF, tag]

theorem decodeChunk_luma {t : Byte} (u : Byte) (rest : List Byte) (h : 0x80 ≤ t.toNat) (h' : t.toNat ≤ 0xBF) :
    decodeChunk (t :: u :: rest) =
      .ok (.luma (t.extractLsb' 0 6) (u.extractLsb' 4 4) (u.extractLsb' 0 4), rest) := by
  obtain ⟨hFE, hFF, tag⟩ := shortTag_of_range (t := t) 0b10#2 (by omega) (by simp; omega)
  simp [decodeChunk, hFE, hFF, tag]

theorem decodeChunk_run {t : Byte} (rest : List Byte) (h : 0xC0 ≤ t.toNat) (h' : t.toNat ≤ 0xFD) :
    decodeChunk (t :: rest) = .ok (.run (t.extractLsb' 0 6), rest) := by
  obtain ⟨hFE, hFF, tag⟩ := shortTag_of_range (t := t) 0b11#2 (by omega) (by simp; omega)
  simp [decodeChunk, hFE, hFF, tag]

theorem decodeChunk_rgb (r g b : Byte) (rest : List Byte) :
    decodeChunk (0xFE#8 :: r :: g :: b :: rest) = .ok (.rgb r g b, rest) := rfl

theorem decodeChunk_rgba (r g b a : Byte) (rest : List Byte) :
    decodeChunk (0xFF#8 :: r :: g :: b :: a :: rest) = .ok (.rgba r g b a, rest) := rfl

/-- The run fields 62 and 63 would make the first bytes 0xFE and 0xFF, so no RUN holds them (R54). -/
theorem runField_le {t : Byte} (h : 0xC0 ≤ t.toNat) (h' : t.toNat ≤ 0xFD) : (t.extractLsb' 0 6).toNat ≤ 61 := by
  rw [BitVec.extractLsb'_toNat, Nat.shiftRight_zero]
  omega

/-! ### The encoder: the bytes of a chunk as numbers (R53) -/

/-- Putting `x` above a field of `n` bits multiplies it by `2 ^ n`. -/
theorem toNat_append_eq_add {m n : Nat} (x : BitVec m) (y : BitVec n) :
    (x ++ y).toNat = x.toNat * 2 ^ n + y.toNat := by
  rw [BitVec.toNat_append, ← Nat.shiftLeft_add_eq_or_of_lt y.isLt, Nat.shiftLeft_eq]

/-- The byte of a 2-bit tag and a 6-bit field: INDEX, RUN and the first byte of LUMA (R52). -/
theorem tag_field_toNat (k : BitVec 2) (f : BitVec 6) : (k ++ f : BitVec 8).toNat = 64 * k.toNat + f.toNat := by
  rw [Nat.mul_comm]; exact toNat_append_eq_add k f

/-- The second byte of LUMA (R52). -/
theorem nibbles_toNat (x y : BitVec 4) : (x ++ y : BitVec 8).toNat = 16 * x.toNat + y.toNat := by
  rw [Nat.mul_comm]; exact toNat_append_eq_add x y

theorem encode_index_toNat (idx : BitVec 6) : (encode (.index idx)).map BitVec.toNat = [idx.toNat] := by
  simp only [encode, List.map_cons, List.map_nil, tag_field_toNat]
  simp

theorem encode_run_toNat (rl : BitVec 6) : (encode (.run rl)).map BitVec.toNat = [0xC0 + rl.toNat] := by
  simp only [encode, List.map_cons, List.map_nil, tag_field_toNat]
  simp

theorem encode_luma_toNat (lg : BitVec 6) (lr lb : BitVec 4) :
    (encode (.luma lg lr lb)).map BitVec.toNat = [0x80 + lg.toNat, 16 * lr.toNat + lb.toNat] := by
  simp only [encode, List.map_cons, List.map_nil, tag_field_toNat, nibbles_toNat]
  simp

theorem encode_diff_toNat (fr fg fb : BitVec 2) :
    (encode (.diff fr fg fb)).map BitVec.toNat = [0x40 + 16 * fr.toNat + 4 * fg.toNat + fb.toNat] := by
  simp only [encode, List.map_cons, List.map_nil, toNat_append_eq_add]
  simp
  omega

end Sys2Proof

open Sys2Proof Sys2Proof.Machine

/-- Settles O3: the decoder's equation for each range of first bytes. -/
theorem firstByteMap : Obligations.FirstByteMap := by
  intro t b1 b2 b3 b4 rest
  refine ⟨decodeChunk_index _, decodeChunk_diff _, decodeChunk_luma b1 _,
    fun h h' => ⟨runField_le h h', decodeChunk_run _ h h'⟩, fun h => ?_, fun h => ?_⟩
  · obtain rfl : t = 0xFE#8 := BitVec.eq_of_toNat_eq h
    exact decodeChunk_rgb b1 b2 b3 _
  · obtain rfl : t = 0xFF#8 := BitVec.eq_of_toNat_eq h
    exact decodeChunk_rgba b1 b2 b3 b4 _

/-- Settles O5: the bytes of each chunk from its fields, then the three biases and `run - 1` over their ranges. -/
theorem fieldAssembly : Obligations.FieldAssembly := by
  refine ⟨encode_index_toNat, encode_diff_toNat, encode_luma_toNat, encode_run_toNat, fun _ _ _ => rfl,
    fun _ _ _ _ => rfl, biased_diff, biased_luma, biased_nibble, fun n h _ => ?_⟩
  have hn : n ≠ 0 := by rintro rfl; simp at h
  exact (run_pred hn).1

end

section
/-! ENC_START by phase and the length of an encode (spec/40_session_ops.md R71, R75, R77). -/

namespace Sys2Proof.Machine

/-! ### ENC_START (R71, R133 (a)) -/

theorem exec_encStart_of_ne_pixels {s : State} (w h : Word) (c : Byte) (hp : s.phase ≠ .pixels) :
    exec (.encStart w h c) s = .next (startOp w h c s) := by
  cases hs : s.phase with
  | idle | done => simp only [exec, execEncStart, hs]
  | pixels => exact absurd hs hp

theorem exec_encStart_of_pixels {s : State} (w h : Word) (c : Byte) (hp : s.phase = .pixels) :
    exec (.encStart w h c) s = .refused .startInPixels := by
  simp only [exec, execEncStart, hp]

/-- An empty grid takes ENC_START to DONE at once, with the header and nothing else in `out` (R75). -/
theorem startOp_of_empty (s : State) {w h : Word} (c : Byte) (he : w = 0 ∨ h = 0) :
    (startOp w h c s).phase = .done ∧ (startOp w h c s).out = encode (.header w h c) := by
  rw [startOp_eq, if_pos he]
  exact ⟨rfl, rfl⟩

/-! ### The ports in DONE (R73, R124) -/

theorem result_of_done {s : State} (h : s.phase = .done) : result s = some s.out := by simp only [result, h]

theorem pixelRequest_of_done {s : State} (h : s.phase = .done) : pixelRequest s = none := by
  simp only [pixelRequest, h]

/-! ### The bytes of chunks against their pixels (R77) -/

/-- A chunk has one to five bytes and stands for 1 to 62 pixels, so either count bounds the other. -/
theorem chunk_length_bounds {i : Instr} (hc : i.isChunk = true) (hw : i.wellFormed = true) :
    (encode i).length ≤ 5 * i.pixels ∧ i.pixels ≤ 62 * (encode i).length := by
  cases i with
  | rgb | rgba | index | diff | luma => simp [encode, Instr.pixels]
  | run rl =>
    have hrl : rl.toNat ≤ 61 := by simpa [Instr.wellFormed] using hw
    simp only [encode, Instr.pixels, List.length_singleton]
    omega
  | header | encStart | pixStep | encEnd | nop | rep => simp [Instr.isChunk] at hc

theorem chunks_length_bounds {cs : List Instr} (h : Safety.chunksOk cs) :
    (cs.flatMap encode).length ≤ 5 * (cs.map Instr.pixels).sum ∧
    (cs.map Instr.pixels).sum ≤ 62 * (cs.flatMap encode).length := by
  induction cs with
  | nil => simp
  | cons c cs ih =>
    obtain ⟨⟨hc, hw⟩, hcs⟩ := List.forall_mem_cons.1 h
    have head := chunk_length_bounds hc hw
    have tail := ih hcs
    simp only [List.flatMap_cons, List.length_append, List.map_cons, List.sum_cons]
    omega

theorem headerOf_length (s : State) : (Safety.headerOf s).length = 14 := rfl

/-- With nothing deferred in DONE, `out` is the header and bytes that the pixels of the grid bound both ways. -/
theorem out_length_of_accounted {s : State} (hp : s.phase = .done) (hr : s.run = 0) (ha : Safety.accounted s) :
    ∃ body, s.out.length = 14 + body ∧ body ≤ 5 * Safety.gridSize s ∧ Safety.gridSize s ≤ 62 * body := by
  obtain ⟨cs, hok, hout, hsum⟩ := ha
  have hgrid : (cs.map Instr.pixels).sum = Safety.gridSize s := by
    simpa [Safety.consumed, hp, hr] using hsum
  refine ⟨(cs.flatMap encode).length, ?_, hgrid ▸ chunks_length_bounds hok⟩
  rw [hout, List.length_append, headerOf_length]

end Sys2Proof.Machine

open Sys2Proof Sys2Proof.Machine

/-- Settles O52: the body after the header is bounded both ways by the pixels of its chunks, which are the grid's. -/
theorem lengthLaws : Obligations.LengthLaws := by
  intro s hp hr ha
  obtain ⟨body, hlen, hle, hge⟩ := out_length_of_accounted hp hr ha
  omega

/-- Settles O32: by phase, with the header's bytes written out. -/
theorem encStartMakesFreshState : Obligations.EncStartMakesFreshState := by
  refine fun s w h c => ⟨fun hp => ?_, exec_encStart_of_pixels w h c⟩
  rw [exec_encStart_of_ne_pixels w h c hp, startOp_eq]
  rfl

/-- Settles O34: ENC_START on an empty grid is in DONE, so `out` is the result and no pixel is asked for. -/
theorem emptyGridIsHeaderOnly : Obligations.EmptyGridIsHeaderOnly := by
  intro s w h c hp he
  obtain ⟨hdone, hout⟩ := startOp_of_empty s c he
  refine ⟨_, exec_encStart_of_ne_pixels w h c hp, hdone, ?_, ?_, pixelRequest_of_done hdone⟩
  · rw [result_of_done hdone, hout]
  · rw [hout]
    exact Laws.EncLength.header w h c rfl

end

section
/-! One PIX_STEP: the differences, the selector, the update and the bytes (spec/41_pixel_step.md R84 to R87). -/

namespace Sys2Proof.Machine

/-! ### The differences and their range tests (R84) -/

theorem channelDiff_bounds (cur prev : Byte) : -255 ≤ channelDiff cur prev ∧ channelDiff cur prev ≤ 255 := by
  have := cur.isLt
  have := prev.isLt
  unfold channelDiff
  omega

theorem channelDiff_sub_bounds (cur prev cur' prev' : Byte) :
    -510 ≤ channelDiff cur prev - channelDiff cur' prev' ∧
    channelDiff cur prev - channelDiff cur' prev' ≤ 510 := by
  have := channelDiff_bounds cur prev
  have := channelDiff_bounds cur' prev'
  omega

theorem alphaSame_iff_da (d : Diffs) : alphaSame d = true ↔ d.da = 0 := decide_eq_true_iff

/-- Both range tests keep `dr` small: DIFF to [-2, 1], LUMA to [-40, 38]. -/
theorem not_diffOk_lumaOk_of_dr_far {d : Diffs} (h : d.dr < -40 ∨ 38 < d.dr) :
    diffOk d = false ∧ lumaOk d = false := by
  simp only [← Bool.not_eq_true, diffOk_iff, lumaOk_iff]
  omega

/-- The DIFF test on the channels themselves. -/
theorem diffOk_pixelDiffs_iff (cur prev : Pixel) : diffOk (pixelDiffs cur prev) = true ↔ cur.a = prev.a ∧
    (-2 ≤ (cur.r.toNat : Int) - prev.r.toNat ∧ (cur.r.toNat : Int) - prev.r.toNat ≤ 1) ∧
    (-2 ≤ (cur.g.toNat : Int) - prev.g.toNat ∧ (cur.g.toNat : Int) - prev.g.toNat ≤ 1) ∧
    (-2 ≤ (cur.b.toNat : Int) - prev.b.toNat ∧ (cur.b.toNat : Int) - prev.b.toNat ≤ 1) := by
  rw [diffOk_iff, alphaSame_iff]
  rfl

/-- The LUMA test on the channels themselves. -/
theorem lumaOk_pixelDiffs_iff (cur prev : Pixel) : lumaOk (pixelDiffs cur prev) = true ↔ cur.a = prev.a ∧
    (-32 ≤ (cur.g.toNat : Int) - prev.g.toNat ∧ (cur.g.toNat : Int) - prev.g.toNat ≤ 31) ∧
    (-8 ≤ (cur.r.toNat : Int) - prev.r.toNat - ((cur.g.toNat : Int) - prev.g.toNat) ∧
      (cur.r.toNat : Int) - prev.r.toNat - ((cur.g.toNat : Int) - prev.g.toNat) ≤ 7) ∧
    (-8 ≤ (cur.b.toNat : Int) - prev.b.toNat - ((cur.g.toNat : Int) - prev.g.toNat) ∧
      (cur.b.toNat : Int) - prev.b.toNat - ((cur.g.toNat : Int) - prev.g.toNat) ≤ 7) := by
  rw [lumaOk_iff, alphaSame_iff]
  rfl

/-- A DIFF that passed its test holds the differences and 2. -/
theorem biased_of_diffOk {d : Diffs} (h : diffOk d = true) : ((biased 2 2 d.dr).toNat : Int) = d.dr + 2 ∧
    ((biased 2 2 d.dg).toNat : Int) = d.dg + 2 ∧ ((biased 2 2 d.db).toNat : Int) = d.db + 2 := by
  obtain ⟨-, ⟨hr, hr'⟩, ⟨hg, hg'⟩, hb, hb'⟩ := (diffOk_iff d).1 h
  exact ⟨biased_diff _ hr hr', biased_diff _ hg hg', biased_diff _ hb hb'⟩

/-- A LUMA that passed its test holds `dg` and 32, and the other two less `dg` and 8. -/
theorem biased_of_lumaOk {d : Diffs} (h : lumaOk d = true) : ((biased 6 32 d.dg).toNat : Int) = d.dg + 32 ∧
    ((biased 4 8 (d.dr - d.dg)).toNat : Int) = d.dr - d.dg + 8 ∧
    ((biased 4 8 (d.db - d.dg)).toNat : Int) = d.db - d.dg + 8 := by
  obtain ⟨-, ⟨hg, hg'⟩, ⟨hr, hr'⟩, hb, hb'⟩ := (lumaOk_iff d).1 h
  exact ⟨biased_luma _ hg hg', biased_nibble _ hr hr', biased_nibble _ hb hb'⟩

/-! ### The selector (R85) -/

/-- The five cases of the selector, each with the conditions before it failed. -/
theorem selectChunk_cases (prev slot cur : Pixel) :
    let d := pixelDiffs cur prev
    let c := selectChunk prev slot cur
    (slot = cur ∧ c = .index (pixelHash cur)) ∨
    (slot ≠ cur ∧ diffOk d = true ∧ c = .diff (biased 2 2 d.dr) (biased 2 2 d.dg) (biased 2 2 d.db)) ∨
    (slot ≠ cur ∧ diffOk d = false ∧ lumaOk d = true ∧
      c = .luma (biased 6 32 d.dg) (biased 4 8 (d.dr - d.dg)) (biased 4 8 (d.db - d.dg))) ∨
    (slot ≠ cur ∧ diffOk d = false ∧ lumaOk d = false ∧ cur.a = prev.a ∧ c = .rgb cur.r cur.g cur.b) ∨
    (slot ≠ cur ∧ diffOk d = false ∧ lumaOk d = false ∧ cur.a ≠ prev.a ∧ c = .rgba cur.r cur.g cur.b cur.a) := by
  intro d c
  by_cases hs : slot = cur
  · exact .inl ⟨hs, by simp [c, selectChunk, hit, hs]⟩
  cases hd : diffOk d with
  | true => exact .inr (.inl ⟨hs, rfl, by simp [c, selectChunk, hit, hs, d, hd]⟩)
  | false =>
    cases hl : lumaOk d with
    | true => exact .inr (.inr (.inl ⟨hs, rfl, rfl, by simp [c, selectChunk, hit, hs, d, hd, hl]⟩))
    | false =>
      by_cases ha : cur.a = prev.a
      · exact .inr (.inr (.inr (.inl ⟨hs, rfl, rfl, ha, by
          simp [c, selectChunk, hit, hs, d, hd, hl, (alphaSame_iff cur prev).2 ha]⟩)))
      · exact .inr (.inr (.inr (.inr ⟨hs, rfl, rfl, ha, by
          simp [c, selectChunk, hit, hs, d, hd, hl, mt (alphaSame_iff cur prev).1 ha]⟩)))

/-- A selected DIFF has passed its test before its fields were biased (R84, R107 (e)). -/
theorem selectChunk_eq_diff {prev slot cur : Pixel} {fr fg fb : BitVec 2}
    (h : selectChunk prev slot cur = .diff fr fg fb) :
    let d := pixelDiffs cur prev
    diffOk d = true ∧ fr = biased 2 2 d.dr ∧ fg = biased 2 2 d.dg ∧ fb = biased 2 2 d.db := by
  obtain ⟨-, e⟩ | ⟨-, hd, e⟩ | ⟨-, -, -, e⟩ | ⟨-, -, -, -, e⟩ | ⟨-, -, -, -, e⟩ := selectChunk_cases prev slot cur <;>
    cases h.symm.trans e
  exact ⟨hd, rfl, rfl, rfl⟩

/-- A selected LUMA has passed its test before its fields were biased (R84, R107 (e)). -/
theorem selectChunk_eq_luma {prev slot cur : Pixel} {lg : BitVec 6} {lr lb : BitVec 4}
    (h : selectChunk prev slot cur = .luma lg lr lb) :
    let d := pixelDiffs cur prev
    lumaOk d = true ∧ lg = biased 6 32 d.dg ∧ lr = biased 4 8 (d.dr - d.dg) ∧ lb = biased 4 8 (d.db - d.dg) := by
  obtain ⟨-, e⟩ | ⟨-, -, e⟩ | ⟨-, -, hl, e⟩ | ⟨-, -, -, -, e⟩ | ⟨-, -, -, -, e⟩ := selectChunk_cases prev slot cur <;>
    cases h.symm.trans e
  exact ⟨hl, rfl, rfl, rfl⟩

/-- The bytes of the selected chunk by the first condition that holds (R87). -/
theorem selectChunk_length (prev slot cur : Pixel) : (encode (selectChunk prev slot cur)).length =
    if slot = cur ∨ diffOk (pixelDiffs cur prev) = true then 1
    else if lumaOk (pixelDiffs cur prev) = true then 2
    else if cur.a = prev.a then 4 else 5 := by
  obtain ⟨hs, e⟩ | ⟨hs, hd, e⟩ | ⟨hs, hd, hl, e⟩ | ⟨hs, hd, hl, ha, e⟩ | ⟨hs, hd, hl, ha, e⟩ :=
    selectChunk_cases prev slot cur <;> rw [e] <;> simp [encode, *]

theorem selectChunk_length_mem (prev slot cur : Pixel) :
    (encode (selectChunk prev slot cur)).length ∈ [1, 2, 4, 5] := by
  rw [selectChunk_length]
  split_ifs <;> simp

/-- A pixel that is no repeat: the flushes, then the selected chunk (R80). -/
theorem pixelOp_out_other {cur : Pixel} {s : State} (h : cur ≠ s.prev) : (pixelOp cur s).out =
    (deferredFlush (capFlush s)).out ++ encode (selectChunk s.prev (cacheRead s (pixelHash cur)) cur) := by
  rw [pixelOp_other h]
  simp [codePixel, cacheRead]

/-! ### The update (R86) -/

theorem pixelOp_cache (cur : Pixel) (s : State) : (pixelOp cur s).cache =
    if cur = s.prev then s.cache else s.cache.set (pixelHash cur).toFin cur := by
  by_cases h : cur = s.prev
  · rw [pixelOp_repeat h, if_pos h]; simp
  · rw [pixelOp_other h, if_neg h]; simp [codePixel]

@[simp] theorem cacheRead_advance (s : State) (i : BitVec 6) : cacheRead (advance s) i = cacheRead s i := by
  simp [cacheRead]

/-! ### The chunks of one step (R87) -/

/-- The chunk of a run in hand when it is flushed: none if the counter is 0 (R83, R101). -/
def flushedChunks (r : BitVec 6) : List Instr := if r = 0 then [] else [.run (r - 1)]

theorem flushedChunks_ok {r : BitVec 6} (h : r.toNat ≤ 62) : Safety.chunksOk (flushedChunks r) := by
  unfold flushedChunks Safety.chunksOk
  split
  · simp
  · next hr =>
    have := run_pred hr
    simp only [List.forall_mem_singleton, Instr.isChunk, Instr.wellFormed, decide_eq_true_eq, true_and]
    omega

/-- A flush moves the pixels of the counter into `out`. -/
theorem flushedChunks_pixels (r : BitVec 6) : ((flushedChunks r).map Instr.pixels).sum = r.toNat := by
  unfold flushedChunks
  split
  · next hr => simp [hr]
  · next hr =>
    have := run_pred hr
    simp only [List.map_singleton, List.sum_singleton, Instr.pixels]
    omega

theorem flushedChunks_length (r : BitVec 6) :
    ((flushedChunks r).flatMap encode).length = if r = 0 then 0 else 1 := by
  unfold flushedChunks
  split <;> simp [encode]

theorem stepChunks_at_cap {cur : Pixel} {s : State} (h : cur = s.prev) (hr : s.run = 62) :
    stepChunks cur s = flushedChunks s.run := by
  simp [stepChunks, flushedChunks, h, hr]

theorem stepChunks_below_cap {cur : Pixel} {s : State} (h : cur = s.prev) (hr : s.run ≠ 62) :
    stepChunks cur s = [] := by
  rw [stepChunks, if_pos h, if_neg hr]

theorem stepChunks_other {cur : Pixel} {s : State} (h : cur ≠ s.prev) :
    stepChunks cur s = flushedChunks s.run ++ [selectChunk s.prev (cacheRead s (pixelHash cur)) cur] := by
  rw [stepChunks, if_neg h, flushedChunks]

theorem stepChunks_ok (cur : Pixel) {s : State} (hs : s.run.toNat ≤ 62) : Safety.chunksOk (stepChunks cur s) := by
  have flush := flushedChunks_ok hs
  by_cases h : cur = s.prev
  · by_cases hr : s.run = 62
    · rwa [stepChunks_at_cap h hr]
    · rw [stepChunks_below_cap h hr]; simp [Safety.chunksOk]
  · obtain ⟨hc, hw, -⟩ := selectChunk_ok s.prev (cacheRead s (pixelHash cur)) cur
    rw [stepChunks_other h]
    exact List.forall_mem_append.2 ⟨flush, by simp [hc, hw]⟩

/-- The pixels that `out` and the counter stand for grow by one. -/
theorem stepChunks_pixels (cur : Pixel) {s : State} (hs : s.run.toNat ≤ 62) :
    ((stepChunks cur s).map Instr.pixels).sum + (pixelOp cur s).run.toNat = s.run.toNat + 1 := by
  rw [pixelOp_run]
  by_cases h : cur = s.prev
  · by_cases hr : s.run = 62
    · rw [stepChunks_at_cap h hr, flushedChunks_pixels, if_pos h, if_pos hr]; rfl
    · rw [stepChunks_below_cap h hr, if_pos h, if_neg hr, BitVec.toNat_add]
      simp
      omega
  · obtain ⟨-, -, hp, -⟩ := selectChunk_ok s.prev (cacheRead s (pixelHash cur)) cur
    rw [stepChunks_other h, if_neg h]
    simp [flushedChunks_pixels, hp]

theorem stepChunks_length_other {cur : Pixel} {s : State} (h : cur ≠ s.prev) :
    ((stepChunks cur s).flatMap encode).length = (if s.run = 0 then 0 else 1) +
      (encode (selectChunk s.prev (cacheRead s (pixelHash cur)) cur)).length := by
  rw [stepChunks_other h, List.flatMap_append, List.length_append, flushedChunks_length, List.flatMap_singleton]

/-- At most one RUN byte and five bytes of the pixel's chunk. -/
theorem stepChunks_length_le (cur : Pixel) (s : State) : ((stepChunks cur s).flatMap encode).length ≤ 6 := by
  by_cases h : cur = s.prev
  · by_cases hr : s.run = 62
    · rw [stepChunks_at_cap h hr, flushedChunks_length]; split <;> omega
    · rw [stepChunks_below_cap h hr]; simp
  · have chunk := encode_chunk_length (selectChunk_ok s.prev (cacheRead s (pixelHash cur)) cur).1
    rw [stepChunks_length_other h]
    split <;> omega

end Sys2Proof.Machine

open Sys2Proof Sys2Proof.Machine

/-- Settles O11: the differences are integers by definition; a difference of 255 fails both range tests; the
selected DIFF or LUMA has the fields of its test. -/
theorem differencesDoNotWrap : Obligations.DifferencesDoNotWrap := by
  intro cur prev d
  refine ⟨rfl, rfl, rfl, rfl, channelDiff_bounds _ _, channelDiff_bounds _ _, channelDiff_bounds _ _,
    channelDiff_bounds _ _, channelDiff_sub_bounds _ _ _ _, channelDiff_sub_bounds _ _ _ _,
    ?_, fun hp hc => ?_, fun hp hc => ?_, ?_, ?_, fun slot fr fg fb h => ?_, fun slot lg lr lb h => ?_⟩
  · rw [← alphaSame_iff_da, alphaSame_iff]
  · have hdr : d.dr = -255 := by simp [d, pixelDiffs, channelDiff, hp, hc]
    exact ⟨hdr, not_diffOk_lumaOk_of_dr_far (.inl (by omega))⟩
  · have hdr : d.dr = 255 := by simp [d, pixelDiffs, channelDiff, hp, hc]
    exact ⟨hdr, not_diffOk_lumaOk_of_dr_far (.inr (by omega))⟩
  · rw [diffOk_iff, alphaSame_iff_da]
  · rw [lumaOk_iff, alphaSame_iff_da]
  · obtain ⟨hd, rfl, rfl, rfl⟩ := selectChunk_eq_diff h
    exact ⟨hd, biased_of_diffOk hd⟩
  · obtain ⟨hl, rfl, rfl, rfl⟩ := selectChunk_eq_luma h
    exact ⟨hl, biased_of_lumaOk hl⟩

/-- Settles O12: case by case of the selector, then its length. -/
theorem selectorPriority : Obligations.SelectorPriority := by
  intro s cur hne dr dg db
  have hlen := selectChunk_length s.prev (cacheRead s (pixelHash cur)) cur
  refine ⟨_, pixelOp_out_other hne, ?_, ?_⟩
  · simp only [dr, dg, db, ← diffOk_pixelDiffs_iff, ← lumaOk_pixelDiffs_iff]
    obtain ⟨hs, e⟩ | ⟨hs, hd, e⟩ | ⟨hs, hd, hl, e⟩ | ⟨hs, hd, hl, ha, e⟩ | ⟨hs, hd, hl, ha, e⟩ :=
      selectChunk_cases s.prev (cacheRead s (pixelHash cur)) cur
    · rwa [if_pos hs]
    · rw [if_neg hs, if_pos hd]
      exact ⟨_, _, _, e, biased_of_diffOk hd⟩
    · rw [if_neg hs, if_neg (ne_true_of_eq_false hd), if_pos hl]
      exact ⟨_, _, _, e, biased_of_lumaOk hl⟩
    · rwa [if_neg hs, if_neg (ne_true_of_eq_false hd), if_neg (ne_true_of_eq_false hl), if_pos ha]
    · rwa [if_neg hs, if_neg (ne_true_of_eq_false hd), if_neg (ne_true_of_eq_false hl), if_neg ha]
  · rw [hlen]
    refine ⟨fun h => if_pos (.inl h), fun h => if_pos (.inr h), fun h => ?_, fun h => ?_, ?_⟩ <;>
      split_ifs <;> omega

/-- Settles O18: the step is the pixel's operation and the advance, which writes neither `prev` nor the cache; a
slot that held the pixel is written with what it held. -/
theorem stateUpdate : Obligations.StateUpdate := by
  intro s t cur hx
  obtain ⟨-, rfl⟩ := exec_pixStep_inv hx
  simp only [advance_prev, advance_cache, cacheRead_advance, pixelOp_prev, pixelOp_cacheRead, pixelOp_cache]
  refine ⟨fun h => ⟨trivial, ?_, fun i hi => ?_⟩, fun h => ⟨h, if_pos h⟩, fun h => ?_⟩
  · rw [if_neg h, if_pos trivial]
  · rw [if_neg h, if_neg hi]
  · rw [cache_set_self s _ _ h, ite_self]

/-- Settles O19: the chunks of the step, case by case. -/
theorem bytesOfOneStep : Obligations.BytesOfOneStep := by
  intro s cur hs
  refine ⟨stepChunks cur s, stepChunks_ok cur hs, pixelOp_out cur s, stepChunks_pixels cur hs,
    fun h hr => stepChunks_below_cap h ?_, fun h hr => ?_, stepChunks_length_other,
    selectChunk_length_mem _ _ _, stepChunks_length_le cur s, fun idx => Laws.EncLength.index idx rfl,
    fun fr fg fb => Laws.EncLength.diff fr fg fb rfl, fun lg lr lb => Laws.EncLength.luma lg lr lb rfl,
    fun r g b => Laws.EncLength.rgb r g b rfl, fun r g b a => Laws.EncLength.rgba r g b a rfl⟩
  · rintro hc; rw [hc] at hr; simp at hr
  · rw [stepChunks_at_cap h hr, hr]; rfl

end

section
/-! The hash and the one slot of a step (spec/42_chunks.md R100). -/

namespace Sys2Proof.Machine

/-! ### The sum and its residue -/

theorem hashSum_le (p : Pixel) : hashSum p ≤ 6630 := by
  have := p.r.isLt
  have := p.g.isLt
  have := p.b.isLt
  have := p.a.isLt
  unfold hashSum
  omega

/-- The hash depends on each channel's residue mod 64 only. -/
theorem pixelHash_toNat_residues (p : Pixel) : (pixelHash p).toNat =
    (3 * (p.r.toNat % 64) + 5 * (p.g.toNat % 64) + 7 * (p.b.toNat % 64) + 11 * (p.a.toNat % 64)) % 64 := by
  rw [pixelHash_toNat, hashSum]
  omega

theorem low_six_toNat (c : Byte) : (c.extractLsb' 0 6).toNat = c.toNat % 64 := by
  simp [BitVec.extractLsb'_toNat]

theorem toNat_add_64_mul_mod (c k : Byte) : (c + 64 * k).toNat % 64 = c.toNat % 64 := by
  have h64 : (64 : Byte).toNat = 64 := rfl
  rw [BitVec.toNat_add, BitVec.toNat_mul, h64]
  omega

theorem pixelHash_red_add_64_mul (p : Pixel) (k : Byte) : pixelHash ⟨p.r + 64 * k, p.g, p.b, p.a⟩ = pixelHash p := by
  apply BitVec.eq_of_toNat_eq
  simp only [pixelHash_toNat_residues, toNat_add_64_mul_mod]

/-! ### The lookup -/

theorem selectChunk_of_hit {prev slot cur : Pixel} (h : slot = cur) :
    selectChunk prev slot cur = .index (pixelHash cur) := by
  simp [selectChunk, hit, h]

end Sys2Proof.Machine

open Sys2Proof Sys2Proof.Machine

/-- Settles O10: the hash by residues mod 64, its values by computation, and the slot of a step that is no repeat
by what the step reads, writes and emits. -/
theorem hashRule : Obligations.HashRule := by
  refine ⟨fun p => ⟨?_, ?_, ?_⟩, pixelHash_red_add_64_mul, by decide, by decide, by decide, by decide, by decide,
    by decide, by decide, by decide, by decide, fun s cur hne => ⟨?_, fun i hi => ?_, fun hhit => ?_⟩⟩
  · simp only [pixelHash_toNat, hashSum, Nat.mul_comm]
  · have := hashSum_le p
    unfold hashSum at this
    omega
  · simp only [low_six_toNat, pixelHash_toNat_residues]
  · rw [pixelOp_cacheRead, if_neg hne, if_pos rfl]
  · rw [pixelOp_cacheRead, if_neg hne, if_neg hi]
  · rw [pixelOp_out_other hne, selectChunk_of_hit hhit]

end

section
/-! What an instruction does to `out`: it appends, but for ENC_START (spec/43_serializer_output.md R120). -/

namespace Sys2Proof.Machine

/-- Two emissions are one, in the order written (R120). -/
theorem emit_append (bs cs : List Byte) (s : State) : emit (bs ++ cs) s = emit cs (emit bs s) := by
  simp only [emit, List.append_assoc]

/-! ### The shared operations -/

theorem out_prefix_endOp (s : State) : s.out <+: (endOp s).out := by
  rw [endOp_eq]
  exact List.prefix_append _ _

/-- The advance emits only where it ends the encode (R73). -/
theorem out_prefix_advance (s : State) : s.out <+: (advance s).out := by
  obtain ⟨-, e⟩ | ⟨-, -, e⟩ | ⟨-, -, e⟩ := advance_cases s
  · rw [e]; exact List.prefix_rfl
  · rw [e]; exact List.prefix_rfl
  · rw [e]; exact out_prefix_endOp s

theorem out_prefix_pixelOp (cur : Pixel) (s : State) : s.out <+: (pixelOp cur s).out := by
  rw [pixelOp_out]
  exact List.prefix_append _ _

theorem emitDelta_out (i : Instr) (dr dg db : Int) (s : State) :
    (emitDelta i dr dg db s).out = s.out ++ encode i := by
  rw [emitDelta_eq]
  rfl

/-! ### The instructions -/

/-- A chunk or the header executed by itself emits its own bytes and no others. -/
theorem exec_record_out {s t : State} {i : Instr} (hi : spaceOf i ≠ .uop) (hx : exec i s = .next t) :
    t.out = s.out ++ encode i := by
  cases i with
  | header | index | rgb | rgba => cases hx; rfl
  | diff | luma => cases hx; exact emitDelta_out _ _ _ _ s
  | run rl =>
    simp only [exec, execRun] at hx
    split at hx <;> cases hx
    rfl
  | encStart | pixStep | encEnd | nop | rep => exact absurd rfl hi

theorem exec_pixStep_out_prefix {s t : State} {cur : Pixel} (hx : exec (.pixStep cur) s = .next t) :
    s.out <+: t.out := by
  obtain ⟨-, rfl⟩ := exec_pixStep_inv hx
  exact (out_prefix_pixelOp cur s).trans (out_prefix_advance _)

/-- REP appends what its PIX_STEPs append, one after the other (R59). -/
theorem exec_rep_out_prefix {n : Nat} {r g b a : Byte} {s t : State} (hx : exec (.rep n r g b a) s = .next t) :
    s.out <+: t.out := by
  induction n generalizing s with
  | zero => cases hx; exact List.prefix_rfl
  | succ n ih =>
    rw [exec_rep_succ] at hx
    cases hp : exec (.pixStep ⟨r, g, b, a⟩) s with
    | next u =>
      rw [hp] at hx
      exact (exec_pixStep_out_prefix hp).trans (ih hx)
    | fault f => rw [hp] at hx; cases hx
    | refused q => rw [hp] at hx; cases hx

/-- Every instruction but ENC_START leaves what was emitted before it in place (R120). -/
theorem exec_out_prefix {s t : State} {i : Instr} (hi : ∀ w h c, i ≠ .encStart w h c) (hx : exec i s = .next t) :
    s.out <+: t.out := by
  cases i with
  | header | rgb | rgba | index | diff | luma | run => exact ⟨_, (exec_record_out (by simp [spaceOf]) hx).symm⟩
  | encStart w h c => exact absurd rfl (hi w h c)
  | pixStep cur => exact exec_pixStep_out_prefix hx
  | encEnd =>
    obtain ⟨-, rfl⟩ := exec_encEnd_inv hx
    exact out_prefix_endOp s
  | nop => cases hx; exact List.prefix_rfl
  | rep => exact exec_rep_out_prefix hx

/-- After ENC_START `out` is the header, whatever it was before (R71). -/
theorem exec_encStart_out {s t : State} {w h : Word} {c : Byte} (hx : exec (.encStart w h c) s = .next t) :
    t.out = encode (.header w h c) := by
  obtain ⟨-, rfl⟩ := exec_encStart_inv hx
  rw [startOp_eq]

end Sys2Proof.Machine

open Sys2Proof Sys2Proof.Machine

/-- Settles O45: the emitted byte is read at the old length of `out`, emissions compose, and an instruction is
ENC_START or leaves `out` a prefix of the new one. -/
theorem outOnlyGrows : Obligations.OutOnlyGrows := by
  refine ⟨fun s b => ⟨rfl, outRead_emit_ge [b] s 0, ?_⟩, fun s b bs => emit_append [b] bs s, fun s t i hx => ?_⟩
  · rw [emit_out, List.length_append, List.length_singleton]
  · by_cases hi : ∃ w h c, i = .encStart w h c
    · obtain ⟨w, h, c, rfl⟩ := hi
      exact .inl ⟨w, h, c, rfl, exec_encStart_out hx⟩
    · obtain ⟨bs, hout⟩ := exec_out_prefix (fun w h c e => hi ⟨w, h, c, e⟩) hx
      exact .inr ⟨bs, hout.symm⟩

end

section
/-! Hardware reset at the port and the rest in IDLE after it (spec/70_reset_and_hazards.md R150). -/

namespace Sys2Proof.Machine

/-- The reset input abandons whatever goes on, in every phase (R150). -/
theorem step_of_rst {s : State} {es : List HostEvent} (h : s.host = .rst :: es) :
    step s = .next (hardwareReset (setHost es s)) := by
  simp only [step, fetch, h, atPorts]

/-- Outside PIXELS the sequencer chooses NOP, so with no event at the ports CORE rests (R58, R73). -/
theorem step_of_no_event {s : State} (hp : s.phase ≠ .pixels) (hh : s.host = []) : step s = .next s := by
  have hseq : sequencer s = .op .nop s := by
    rcases sequencer_cases s with ⟨-, hs⟩ | ⟨hpix, -⟩ | ⟨hpix, -⟩
    · exact hs
    · exact absurd hpix hp
    · exact absurd hpix hp
  simp only [step, fetch, hh, hseq]
  rfl

/-! ### The ports in IDLE (R73, R124) -/

theorem result_of_idle {s : State} (h : s.phase = .idle) : result s = none := by simp only [result, h]

theorem pixelRequest_of_idle {s : State} (h : s.phase = .idle) : pixelRequest s = none := by
  simp only [pixelRequest, h]

end Sys2Proof.Machine

open Sys2Proof Sys2Proof.Machine

/-- Settles O42: the reset leads to phase IDLE, where nothing is handed out, no pixel is asked for, and the sequencer
has nothing to do. -/
theorem hardwareReset : Obligations.HardwareReset := by
  intro s es h
  have hidle : (Machine.hardwareReset (setHost es s)).phase = .idle := rfl
  have hrest : (Machine.hardwareReset (setHost es s)).phase ≠ .pixels := by rw [hidle]; decide
  exact ⟨_, step_of_rst h, hidle, rfl, rfl, rfl, result_of_idle hidle, pixelRequest_of_idle hidle,
    step_of_no_event hrest⟩

end

section
/-! The decoder and the encoder against each other, in the three coding spaces, and a whole stream
(spec/30_encoding.md R50 to R58). -/

namespace Sys2Proof

/-! ### A byte as its 2-bit tag and its field (R52, R54) -/

/-- The ranges of first bytes of R54. -/
theorem firstByte_cases (t : Byte) : t.toNat ≤ 0x3F ∨ (0x40 ≤ t.toNat ∧ t.toNat ≤ 0x7F) ∨
    (0x80 ≤ t.toNat ∧ t.toNat ≤ 0xBF) ∨ (0xC0 ≤ t.toNat ∧ t.toNat ≤ 0xFD) ∨ t = 0xFE#8 ∨ t = 0xFF#8 := by
  have hFE : t = 0xFE#8 ↔ t.toNat = 0xFE := ⟨fun h => by rw [h]; rfl, fun h => BitVec.eq_of_toNat_eq h⟩
  have hFF : t = 0xFF#8 ↔ t.toNat = 0xFF := ⟨fun h => by rw [h]; rfl, fun h => BitVec.eq_of_toNat_eq h⟩
  rw [hFE, hFF]
  omega

/-- A first byte below 0xFE is its 2-bit tag and the six bits behind it. -/
theorem eq_tag_append_field {t : Byte} (k : BitVec 2) (h : t.toNat < 0xFE) (hk : t.toNat / 64 = k.toNat) :
    t = k ++ t.extractLsb' 0 6 := by
  obtain ⟨-, -, tag⟩ := shortTag_of_range k h hk
  have bits : t.extractLsb' (0 + 6) 2 ++ t.extractLsb' 0 6 = t.extractLsb' 0 8 :=
    BitVec.extractLsb'_append_extractLsb'_eq_extractLsb' rfl
  rw [← tag, bits, BitVec.extractLsb'_eq_self]

/-- Two nibbles put together are the byte (R52). -/
theorem nibbles_append (u : Byte) : u.extractLsb' 4 4 ++ u.extractLsb' 0 4 = u := by
  have bits : u.extractLsb' (0 + 4) 4 ++ u.extractLsb' 0 4 = u.extractLsb' 0 8 :=
    BitVec.extractLsb'_append_extractLsb'_eq_extractLsb' rfl
  rw [bits, BitVec.extractLsb'_eq_self]

/-- The three fields of a DIFF byte, put together, are its low six bits (R53). -/
theorem diffFields_append (t : Byte) :
    (t.extractLsb' 4 2 ++ t.extractLsb' 2 2 ++ t.extractLsb' 0 2 : BitVec 6) = t.extractLsb' 0 6 := by
  have high : t.extractLsb' (2 + 2) 2 ++ t.extractLsb' 2 2 = t.extractLsb' 2 4 :=
    BitVec.extractLsb'_append_extractLsb'_eq_extractLsb' rfl
  have all : t.extractLsb' (0 + 2) 4 ++ t.extractLsb' 0 2 = t.extractLsb' 0 6 :=
    BitVec.extractLsb'_append_extractLsb'_eq_extractLsb' rfl
  rw [high, all]

/-- The fields of a DIFF byte are read where they were put (R53). -/
theorem diffFields_extract (k fr fg fb : BitVec 2) :
    let t : Byte := k ++ (fr ++ fg ++ fb : BitVec 6)
    t.extractLsb' 4 2 = fr ∧ t.extractLsb' 2 2 = fg ∧ t.extractLsb' 0 2 = fb := by
  refine ⟨?_, ?_, ?_⟩
  · rw [BitVec.extractLsb'_append_eq_of_add_le (by decide), BitVec.extractLsb'_append_eq_of_le (by decide)]
    exact BitVec.extractLsb'_append_eq_left
  · rw [BitVec.extractLsb'_append_eq_of_add_le (by decide), BitVec.extractLsb'_append_eq_of_le (by decide)]
    exact BitVec.extractLsb'_append_eq_right
  · rw [BitVec.extractLsb'_append_eq_of_add_le (by decide)]
    exact BitVec.extractLsb'_append_eq_right

/-- The byte of a DIFF has the tag 01 above its fields (R52). -/
theorem encode_diff_eq (fr fg fb : BitVec 2) : encode (.diff fr fg fb) = [0b01#2 ++ (fr ++ fg ++ fb : BitVec 6)] := by
  revert fr fg fb
  decide

/-! ### The chunk space: the decoder reads what the encoder writes -/

theorem isChunk_of_spaceOf {i : Instr} (h : spaceOf i = .chunk) : i.isChunk = true := by
  cases i with
  | rgb | rgba | index | diff | luma | run => rfl
  | header | encStart | pixStep | encEnd | nop | rep => simp [spaceOf] at h

theorem decodeChunk_encode {i : Instr} (rest : List Byte) (hc : i.isChunk = true) (hw : i.wellFormed = true) :
    decodeChunk (encode i ++ rest) = .ok (i, rest) := by
  cases i with
  | rgb r g b => exact decodeChunk_rgb r g b rest
  | rgba r g b a => exact decodeChunk_rgba r g b a rest
  | index idx =>
    have ht : (0b00#2 ++ idx : Byte).toNat = idx.toNat := by simpa using tag_field_toNat 0b00#2 idx
    have := idx.isLt
    simp only [encode, List.singleton_append]
    rw [decodeChunk_index rest (by omega), BitVec.extractLsb'_append_eq_right]
  | diff fr fg fb =>
    have ht : (0b01#2 ++ (fr ++ fg ++ fb : BitVec 6) : Byte).toNat = 64 + (fr ++ fg ++ fb).toNat :=
      tag_field_toNat _ _
    have := (fr ++ fg ++ fb).isLt
    obtain ⟨hr, hg, hb⟩ := diffFields_extract 0b01#2 fr fg fb
    rw [encode_diff_eq, List.singleton_append, decodeChunk_diff rest (by omega) (by omega), hr, hg, hb]
  | luma lg lr lb =>
    have ht : (0b10#2 ++ lg : Byte).toNat = 128 + lg.toNat := tag_field_toNat _ lg
    have := lg.isLt
    simp only [encode, List.cons_append, List.nil_append]
    rw [decodeChunk_luma _ rest (by omega) (by omega), BitVec.extractLsb'_append_eq_right,
      BitVec.extractLsb'_append_eq_right, BitVec.extractLsb'_append_eq_left]
  | run rl =>
    have ht : (0b11#2 ++ rl : Byte).toNat = 192 + rl.toNat := tag_field_toNat _ rl
    have hrl : rl.toNat ≤ 61 := by simpa [Instr.wellFormed] using hw
    simp only [encode, List.singleton_append]
    rw [decodeChunk_run rest (by omega) (by omega), BitVec.extractLsb'_append_eq_right]
  | header | encStart | pixStep | encEnd | nop | rep => simp [Instr.isChunk] at hc

/-! ### The chunk space: what the decoder reads is what the encoder writes -/

theorem decodeChunk_luma_cut {t : Byte} (h : 0x80 ≤ t.toNat) (h' : t.toNat ≤ 0xBF) :
    decodeChunk [t] = .error .truncated := by
  obtain ⟨hFE, hFF, tag⟩ := shortTag_of_range (t := t) 0b10#2 (by omega) (by simp; omega)
  simp [decodeChunk, hFE, hFF, tag]

theorem decodeChunk_rgb_cut {bs : List Byte} (h : bs.length < 3) : decodeChunk (0xFE#8 :: bs) = .error .truncated := by
  match bs, h with
  | [], _ | [_], _ | [_, _], _ => rfl

theorem decodeChunk_rgba_cut {bs : List Byte} (h : bs.length < 4) : decodeChunk (0xFF#8 :: bs) = .error .truncated := by
  match bs, h with
  | [], _ | [_], _ | [_, _], _ | [_, _, _], _ => rfl

theorem decodeChunk_inv {bs rest : List Byte} {i : Instr} (h : decodeChunk bs = .ok (i, rest)) :
    bs = encode i ++ rest ∧ i.isChunk = true ∧ i.wellFormed = true := by
  cases bs with
  | nil => cases h
  | cons t bs =>
    obtain ht | ⟨ht, ht'⟩ | ⟨ht, ht'⟩ | ⟨ht, ht'⟩ | rfl | rfl := firstByte_cases t
    · cases (decodeChunk_index bs ht).symm.trans h
      refine ⟨?_, rfl, rfl⟩
      rw [encode, ← eq_tag_append_field 0b00#2 (by omega) (by simp; omega), List.singleton_append]
    · cases (decodeChunk_diff bs ht ht').symm.trans h
      refine ⟨?_, rfl, rfl⟩
      rw [encode_diff_eq, diffFields_append, ← eq_tag_append_field 0b01#2 (by omega) (by simp; omega),
        List.singleton_append]
    · cases bs with
      | nil => cases (decodeChunk_luma_cut ht ht').symm.trans h
      | cons u bs =>
        cases (decodeChunk_luma u bs ht ht').symm.trans h
        refine ⟨?_, rfl, rfl⟩
        rw [encode, nibbles_append, ← eq_tag_append_field 0b10#2 (by omega) (by simp; omega)]
        rfl
    · cases (decodeChunk_run bs ht ht').symm.trans h
      refine ⟨?_, rfl, decide_eq_true (runField_le ht ht')⟩
      rw [encode, ← eq_tag_append_field 0b11#2 (by omega) (by simp; omega), List.singleton_append]
    · match bs, h with
      | r :: g :: b :: bs, h => cases h; exact ⟨rfl, rfl, rfl⟩
    · match bs, h with
      | r :: g :: b :: a :: bs, h => cases h; exact ⟨rfl, rfl, rfl⟩

/-! ### The header and the operation space -/

theorem decodeHeader_encode (w h : Word) (c : Byte) (rest : List Byte) :
    decodeHeader (encode (.header w h c) ++ rest) = .ok (.header w h c, rest) := by
  simp [encode, decodeHeader, be32, ofBe32_be32]

theorem decodeHeader_inv {bs rest : List Byte} {i : Instr} (hd : decodeHeader bs = .ok (i, rest)) :
    ∃ w h c, i = .header w h c ∧ bs = encode i ++ rest := by
  unfold decodeHeader at hd
  split at hd
  · split_ifs at hd with hmagic hspace
    cases hd
    refine ⟨_, _, _, rfl, ?_⟩
    simp only [ne_eq, Decidable.not_not] at hmagic hspace
    simp only [encode, be32_ofBe32, ← hmagic, hspace, List.cons_append, List.nil_append]
  · cases hd

theorem decodeUop_encode {i : Instr} (rest : List Byte) (hs : spaceOf i = .uop) (hp : i.isPseudo = false) :
    decodeUop (encode i ++ rest) = .ok (i, rest) := by
  cases i with
  | encStart w h c => simp [encode, decodeUop, uopByte, be32, ofBe32_be32]
  | pixStep | encEnd | nop => rfl
  | rep => simp [Instr.isPseudo] at hp
  | header | rgb | rgba | index | diff | luma | run => simp [spaceOf] at hs

theorem decodeUop_inv {bs rest : List Byte} {i : Instr} (hd : decodeUop bs = .ok (i, rest)) :
    bs = encode i ++ rest ∧ spaceOf i = .uop ∧ i.wellFormed = true ∧ i.isPseudo = false := by
  cases bs with
  | nil => cases hd
  | cons t bs =>
    simp only [decodeUop] at hd
    split_ifs at hd with h0 h1 h2 h3
    · cases hd; subst h0; exact ⟨rfl, rfl, rfl, rfl⟩
    · subst h1
      split at hd
      · cases hd
        exact ⟨by simp [encode, be32_ofBe32], rfl, rfl, rfl⟩
      · cases hd
    · subst h2
      split at hd <;> cases hd
      exact ⟨rfl, rfl, rfl, rfl⟩
    · cases hd; subst h3; exact ⟨rfl, rfl, rfl, rfl⟩

/-! ### A stream (R50) -/

/-- Fuel for as many chunks as there are reads them all back. -/
theorem parseChunksFuel_flatMap_encode {cs : List Instr} (hcs : Safety.chunksOk cs) (fuel : Nat)
    (hf : cs.length ≤ fuel) : parseChunksFuel fuel (cs.flatMap encode) = .ok cs := by
  induction cs generalizing fuel with
  | nil => cases fuel <;> rfl
  | cons c cs ih =>
    obtain ⟨⟨hc, hw⟩, hcs⟩ := List.forall_mem_cons.1 hcs
    obtain ⟨fuel, rfl⟩ : ∃ n, fuel = n + 1 := ⟨fuel - 1, by simp at hf; omega⟩
    have hread := decodeChunk_encode (cs.flatMap encode) hc hw
    rw [List.flatMap_cons]
    cases hb : encode c ++ cs.flatMap encode with
    | nil => rw [hb] at hread; cases hread
    | cons b bs =>
      rw [hb] at hread
      simp only [parseChunksFuel, hread, ih hcs fuel (by simpa using hf)]

theorem length_le_flatMap_encode {cs : List Instr} (hcs : Safety.chunksOk cs) :
    cs.length ≤ (cs.flatMap encode).length := by
  induction cs with
  | nil => simp
  | cons c cs ih =>
    obtain ⟨⟨hc, -⟩, hcs⟩ := List.forall_mem_cons.1 hcs
    have head := (encode_chunk_length hc).1
    have tail := ih hcs
    simp only [List.flatMap_cons, List.length_append, List.length_cons]
    omega

theorem parseChunks_flatMap_encode {cs : List Instr} (hcs : Safety.chunksOk cs) :
    parseChunks (cs.flatMap encode) = .ok cs :=
  parseChunksFuel_flatMap_encode hcs _ (length_le_flatMap_encode hcs)

end Sys2Proof

open Sys2Proof Sys2Proof.Machine

/-- Settles O1: space by space. -/
theorem decodeOfEncode : Obligations.DecodeOfEncode := by
  intro i rest hw hp
  cases hs : spaceOf i with
  | hdr =>
    cases i with
    | header w h c => exact decodeHeader_encode w h c rest
    | rgb | rgba | index | diff | luma | run | encStart | pixStep | encEnd | nop | rep => simp [spaceOf] at hs
  | chunk => exact decodeChunk_encode rest (isChunk_of_spaceOf hs) hw
  | uop => exact decodeUop_encode rest hs hp

/-- Settles O2: space by space. -/
theorem encodeOfDecode : Obligations.EncodeOfDecode := by
  intro sp bs rest i h
  cases sp with
  | hdr =>
    obtain ⟨w, ht, c, rfl, hbs⟩ := decodeHeader_inv h
    exact ⟨hbs, rfl, rfl, rfl⟩
  | chunk =>
    obtain ⟨hbs, hc, hw⟩ := decodeChunk_inv h
    obtain ⟨hs, hp⟩ := isChunk_space hc
    exact ⟨hbs, hs, hw, hp⟩
  | uop => exact decodeUop_inv h

/-- Settles O4: range by range of the first byte. -/
theorem chunkLengthFromFirstByte : Obligations.ChunkLengthFromFirstByte := by
  intro t rest more
  obtain ht | ⟨ht, ht'⟩ | ⟨ht, ht'⟩ | ⟨ht, ht'⟩ | rfl | rfl := firstByte_cases t
  · have hm : more = 0 := by simp only [more]; split_ifs <;> omega
    exact hm ▸ ⟨fun _ => ⟨_, decodeChunk_index rest ht⟩, fun h => absurd h (Nat.not_lt_zero _)⟩
  · have hm : more = 0 := by simp only [more]; split_ifs <;> omega
    exact hm ▸ ⟨fun _ => ⟨_, decodeChunk_diff rest ht ht'⟩, fun h => absurd h (Nat.not_lt_zero _)⟩
  · have hm : more = 1 := by simp only [more]; split_ifs <;> omega
    rw [hm]
    cases rest with
    | nil => exact ⟨fun h => absurd h (by simp), fun _ => decodeChunk_luma_cut ht ht'⟩
    | cons u rest => exact ⟨fun _ => ⟨_, decodeChunk_luma u rest ht ht'⟩, fun h => absurd h (by simp)⟩
  · have hm : more = 0 := by simp only [more]; split_ifs <;> omega
    exact hm ▸ ⟨fun _ => ⟨_, decodeChunk_run rest ht ht'⟩, fun h => absurd h (Nat.not_lt_zero _)⟩
  · refine ⟨fun (h : 3 ≤ rest.length) => ?_, decodeChunk_rgb_cut⟩
    match rest, h with
    | r :: g :: b :: rest, _ => exact ⟨_, decodeChunk_rgb r g b rest⟩
  · refine ⟨fun (h : 4 ≤ rest.length) => ?_, decodeChunk_rgba_cut⟩
    match rest, h with
    | r :: g :: b :: a :: rest, _ => exact ⟨_, decodeChunk_rgba r g b a rest⟩

/-- Settles O6: by computation on the fixed words. -/
theorem specWordsDecode : Obligations.SpecWordsDecode := by
  unfold Obligations.SpecWordsDecode
  decide

/-- Settles O7: the header, and then chunk by chunk. -/
theorem streamReadsBack : Obligations.StreamReadsBack := by
  intro w h c cs hcs
  simp only [parseStream, decodeHeader_encode, parseChunks_flatMap_encode hcs]

end

section
/-! Written lines: a line and its instruction, a REP and its PIX lines (spec/30_encoding.md R59). -/

namespace Sys2Proof.Machine

/-! ### Lines -/

/-- The number an operand word shows is the field it was made of, whatever the bias (R53, R59). -/
theorem fieldOf_unbiased {n : Nat} (bias : Nat) (v : BitVec n) : fieldOf n bias (unbiased bias v) = some v := by
  have hv : unbiased bias v + bias = (v.toNat : Int) := by unfold unbiased; omega
  have hlt : (v.toNat : Int) < 2 ^ n := by exact_mod_cast v.isLt
  rw [fieldOf, hv, if_pos ⟨Int.natCast_nonneg _, hlt⟩, BitVec.ofInt_natCast, BitVec.ofNat_toNat, BitVec.setWidth_eq]

theorem fieldOf_toNat {n : Nat} (v : BitVec n) : fieldOf n 0 (v.toNat : Int) = some v := by
  simpa [unbiased] using fieldOf_unbiased 0 v

theorem ofLine_lineOf {i : Instr} (hw : i.wellFormed = true) (hi : i ≠ .nop) : ofLine (lineOf i) = some i := by
  cases i with
  | run rl =>
    have hrl : rl.toNat ≤ 61 := by simpa [Instr.wellFormed] using hw
    have hrange : 1 ≤ (rl.toNat : Int) + 1 ∧ (rl.toNat : Int) + 1 ≤ 62 := by omega
    simp [lineOf, ofLine, hrange, fieldOf_toNat]
  | diff | luma => simp [lineOf, ofLine, fieldOf_unbiased]
  | header | rgb | rgba | index | encStart | pixStep | rep => simp [lineOf, ofLine, numTok, fieldOf_toNat]
  | encEnd => rfl
  | nop => exact absurd rfl hi

/-! ### Running one program after another -/

/-- An outcome, and what follows if it is a next state. -/
def andThen (o : Host.Outcome State Fault Refusal) (k : State → Host.Outcome State Fault Refusal) :
    Host.Outcome State Fault Refusal :=
  match o with
  | .next t => k t
  | .fault f => .fault f
  | .refused q => .refused q

theorem andThen_next (o : Host.Outcome State Fault Refusal) : andThen o .next = o := by cases o <;> rfl

theorem andThen_assoc (o : Host.Outcome State Fault Refusal) (k l : State → Host.Outcome State Fault Refusal) :
    andThen (andThen o k) l = andThen o fun t => andThen (k t) l := by cases o <;> rfl

theorem execAll_cons (i : Instr) (is : List Instr) (s : State) :
    execAll (i :: is) s = andThen (exec i s) (execAll is) := rfl

theorem execAll_singleton (i : Instr) (s : State) : execAll [i] s = exec i s := andThen_next _

theorem execAll_append (is js : List Instr) (s : State) :
    execAll (is ++ js) s = andThen (execAll is s) (execAll js) := by
  induction is generalizing s with
  | nil => rfl
  | cons i is ih => rw [List.cons_append, execAll_cons, execAll_cons, andThen_assoc, funext ih]

/-! ### REP (R59) -/

/-- REP is a PIX_STEP and then a REP of one less. -/
theorem exec_rep_succ_andThen (n : Nat) (r g b a : Byte) (s : State) :
    exec (.rep (n + 1) r g b a) s = andThen (exec (.pixStep ⟨r, g, b, a⟩) s) (exec (.rep n r g b a)) := rfl

theorem execAll_replicate_pixStep (n : Nat) (r g b a : Byte) (s : State) :
    execAll (List.replicate n (.pixStep ⟨r, g, b, a⟩)) s = exec (.rep n r g b a) s := by
  induction n generalizing s with
  | zero => rfl
  | succ n ih => rw [List.replicate_succ, execAll_cons, exec_rep_succ_andThen, funext ih]

theorem expand_cons (i : Instr) (is : List Instr) : expand (i :: is) = expand [i] ++ expand is := by
  simp only [expand, List.flatMap_cons, List.flatMap_nil, List.append_nil]

/-- The lines that stand for one instruction do what it does. -/
theorem execAll_expand_singleton (i : Instr) (s : State) : execAll (expand [i]) s = exec i s := by
  cases i with
  | rep n r g b a =>
    simp only [expand, List.flatMap_cons, List.flatMap_nil, List.append_nil]
    exact execAll_replicate_pixStep n r g b a s
  | header | rgb | rgba | index | diff | luma | run | encStart | pixStep | encEnd | nop =>
    exact execAll_singleton _ s

theorem execAll_expand (is : List Instr) (s : State) : execAll (expand is) s = execAll is s := by
  induction is generalizing s with
  | nil => rfl
  | cons i is ih => rw [expand_cons, execAll_append, execAll_expand_singleton, execAll_cons, funext ih]

end Sys2Proof.Machine

open Sys2Proof Sys2Proof.Machine

/-- Settles O8: line by line. -/
theorem notationReadsBack : Obligations.NotationReadsBack := fun _ => ofLine_lineOf

/-- Settles O9, by induction on the program and on the number of pixels of a REP. -/
theorem repStandsForItsLines : Obligations.RepStandsForItsLines := execAll_expand

end

section
/-! PIX_STEP as an instruction: its phase, its clauses and its bytes (spec/41_pixel_step.md R80 to R86,
spec/42_chunks.md R101 to R106). -/

namespace Sys2Proof.Machine

/-! ### By phase (R22, R133 (b)) -/

theorem exec_pixStep_of_pixels {s : State} (cur : Pixel) (hp : s.phase = .pixels) :
    exec (.pixStep cur) s = .next (advance (pixelOp cur s)) := by
  simp only [exec, execPixStep, hp]

theorem exec_pixStep_of_ne_pixels {s : State} (cur : Pixel) (hp : s.phase ≠ .pixels) :
    exec (.pixStep cur) s = .refused .pixelNotRequested := by
  cases hs : s.phase with
  | idle | done => simp only [exec, execPixStep, hs]
  | pixels => exact absurd hs hp

/-! ### The state after the operation, in one equation a clause -/

/-- The byte of a run in hand, if there is one (R101). -/
def runBytes (r : BitVec 6) : List Byte := if r = 0 then [] else [0xC0 ||| (r - 1).setWidth 8]

theorem runBytes_zero : runBytes 0 = [] := rfl

theorem runBytes_of_ne_zero {r : BitVec 6} (h : r ≠ 0) : runBytes r = [0xC0 ||| (r - 1).setWidth 8] := if_neg h

/-- The byte of a RUN in the spelling of the statements. -/
theorem encode_run_or (rl : BitVec 6) : encode (.run rl) = [0xC0 ||| rl.setWidth 8] := encode_run rl

theorem flushedChunks_bytes (r : BitVec 6) : (flushedChunks r).flatMap encode = runBytes r := by
  unfold flushedChunks runBytes
  split
  · rfl
  · rw [List.flatMap_singleton, encode_run_or]

/-- Clause 2 (R82). -/
theorem pixelOp_repeat_below {cur : Pixel} {s : State} (h : cur = s.prev) (hr : s.run ≠ 62) :
    pixelOp cur s = { s with run := s.run + 1 } := by
  rw [pixelOp_repeat h, capFlush_below hr]
  rfl

/-- Clauses 1 and 2 (R81, R82). -/
theorem pixelOp_repeat_at_cap {cur : Pixel} {s : State} (h : cur = s.prev) (hr : s.run = 62) :
    pixelOp cur s = { s with run := 1, out := s.out ++ [0xFD] } := by
  rw [pixelOp_repeat h, capFlush_at_cap hr, flushRun, hr]
  rfl

/-- Below the cap the counter counts without wrapping. -/
theorem run_succ_toNat {r : BitVec 6} (h : r.toNat < 62) : (r + 1).toNat = r.toNat + 1 := by
  rw [BitVec.toNat_add]
  exact Nat.mod_eq_of_lt (by simp; omega)

/-- A repeat leaves a counter of 1 to 62. -/
theorem pixelOp_repeat_run {cur : Pixel} {s : State} (h : cur = s.prev) (hr : s.run.toNat ≤ 62) :
    1 ≤ (pixelOp cur s).run.toNat ∧ (pixelOp cur s).run.toNat ≤ 62 := by
  rw [pixelOp_run, if_pos h]
  split
  · decide
  · next h62 =>
    have hne : s.run.toNat ≠ 62 := fun e => h62 (BitVec.eq_of_toNat_eq e)
    rw [run_succ_toNat (by omega)]
    omega

/-- Clauses 3 to 8 (R83, R85, R86). -/
theorem pixelOp_other_eq {cur : Pixel} {s : State} (h : cur ≠ s.prev) : pixelOp cur s = { s with
    run := 0, prev := cur, cache := s.cache.set (pixelHash cur).toFin cur
    out := s.out ++ runBytes s.run ++ encode (selectChunk s.prev (cacheRead s (pixelHash cur)) cur) } := by
  rw [pixelOp_other h, flushes_eq]
  split
  · next hr => rw [hr, runBytes_zero, List.append_nil, ← hr]; rfl
  · next hr => rw [runBytes_of_ne_zero hr, ← encode_run_or]; rfl

/-- Clause 1 puts its byte in front of whatever the pixel emits (R81). -/
theorem pixelOp_out_at_cap (cur : Pixel) {s : State} (hr : s.run = 62) :
    ∃ bytes, (pixelOp cur s).out = s.out ++ 0xFD :: bytes := by
  by_cases h : cur = s.prev
  · exact ⟨[], by rw [pixelOp_repeat_at_cap h hr]⟩
  · exact ⟨_, by rw [pixelOp_other_eq h, hr]; exact List.append_assoc _ _ _⟩

/-! ### ENC_END (R74) -/

theorem endOp_eq_runBytes (s : State) :
    endOp s = { s with out := s.out ++ runBytes s.run, run := 0, phase := .done } := by
  rw [endOp_eq]
  unfold runBytes
  split
  · rfl
  · rw [encode_run_or]

theorem exec_encEnd_of_ne_idle {s : State} (hp : s.phase ≠ .idle) : exec .encEnd s = .next (endOp s) := by
  cases hs : s.phase with
  | idle => exact absurd hs hp
  | pixels | done => simp only [exec, execEncEnd, hs]

theorem exec_encEnd_of_idle {s : State} (hp : s.phase = .idle) : exec .encEnd s = .refused .endInIdle := by
  simp only [exec, execEncEnd, hp]

/-! ### The bytes of DIFF and LUMA as the pseudocode sums them (R103, R104) -/

theorem eq_ofInt_of_toNat {b : Byte} {x : Int} (h : (b.toNat : Int) = x) : b = BitVec.ofInt 8 x := by
  rw [← h, BitVec.ofInt_natCast, BitVec.ofNat_toNat, BitVec.setWidth_eq]

theorem encode_diff_ofInt (fr fg fb : BitVec 2) :
    encode (.diff fr fg fb) = [BitVec.ofInt 8 (0x40 + fr.toNat * 16 + fg.toNat * 4 + fb.toNat)] := by
  have h := encode_diff_toNat fr fg fb
  simp only [encode, List.map_cons, List.map_nil, List.cons.injEq, and_true] at h ⊢
  exact eq_ofInt_of_toNat (by omega)

theorem encode_luma_ofInt (lg : BitVec 6) (lr lb : BitVec 4) :
    encode (.luma lg lr lb) = [BitVec.ofInt 8 (0x80 + lg.toNat), BitVec.ofInt 8 (lr.toNat * 16 + lb.toNat)] := by
  have h := encode_luma_toNat lg lr lb
  simp only [encode, List.map_cons, List.map_nil, List.cons.injEq, and_true] at h ⊢
  exact ⟨eq_ofInt_of_toNat (by omega), eq_ofInt_of_toNat (by omega)⟩

/-! ### What no pixel produces (R57) -/

theorem selectChunk_isRun (prev slot cur : Pixel) : Safety.isRun (selectChunk prev slot cur) = false := by
  obtain ⟨-, e⟩ | ⟨-, -, e⟩ | ⟨-, -, -, e⟩ | ⟨-, -, -, -, e⟩ | ⟨-, -, -, -, e⟩ := selectChunk_cases prev slot cur <;>
    rw [e] <;> rfl

theorem not_diffOk_of_selectChunk_luma {prev slot cur : Pixel} {lg : BitVec 6} {lr lb : BitVec 4}
    (h : selectChunk prev slot cur = .luma lg lr lb) : diffOk (pixelDiffs cur prev) = false := by
  obtain ⟨-, e⟩ | ⟨-, -, e⟩ | ⟨-, hd, -, e⟩ | ⟨-, -, -, -, e⟩ | ⟨-, -, -, -, e⟩ := selectChunk_cases prev slot cur <;>
    cases h.symm.trans e
  exact hd

theorem not_diffOk_lumaOk_of_selectChunk_rgb {prev slot cur : Pixel} {r g b : Byte}
    (h : selectChunk prev slot cur = .rgb r g b) :
    diffOk (pixelDiffs cur prev) = false ∧ lumaOk (pixelDiffs cur prev) = false := by
  obtain ⟨-, e⟩ | ⟨-, -, e⟩ | ⟨-, -, -, e⟩ | ⟨-, hd, hl, -, e⟩ | ⟨-, -, -, -, e⟩ := selectChunk_cases prev slot cur <;>
    cases h.symm.trans e
  exact ⟨hd, hl⟩

theorem alpha_ne_of_selectChunk_rgba {prev slot cur : Pixel} {r g b a : Byte}
    (h : selectChunk prev slot cur = .rgba r g b a) : cur.a ≠ prev.a := by
  obtain ⟨-, e⟩ | ⟨-, -, e⟩ | ⟨-, -, -, e⟩ | ⟨-, -, -, -, e⟩ | ⟨-, -, -, ha, e⟩ := selectChunk_cases prev slot cur <;>
    cases h.symm.trans e
  exact ha

/-- An INDEX is the pixel's own and comes from a hit (R102). -/
theorem selectChunk_eq_index {prev slot cur : Pixel} {idx : BitVec 6} (h : selectChunk prev slot cur = .index idx) :
    slot = cur ∧ idx = pixelHash cur := by
  obtain ⟨hs, e⟩ | ⟨-, -, e⟩ | ⟨-, -, -, e⟩ | ⟨-, -, -, -, e⟩ | ⟨-, -, -, -, e⟩ := selectChunk_cases prev slot cur <;>
    cases h.symm.trans e
  exact ⟨hs, rfl⟩

/-- Chunks with the same bytes are the same. -/
theorem encode_chunk_injective {i j : Instr} (hi : i.isChunk = true ∧ i.wellFormed = true)
    (hj : j.isChunk = true ∧ j.wellFormed = true) (h : encode i = encode j) : i = j := by
  have e := decodeChunk_encode [] hi.1 hi.2
  rw [h, decodeChunk_encode [] hj.1 hj.2] at e
  cases e
  rfl

theorem eq_of_channelDiff_eq_zero {c p : Byte} (h : channelDiff c p = 0) : c = p :=
  BitVec.eq_of_toNat_eq (by unfold channelDiff at h; omega)

/-- A pixel with the same alpha and no colour difference is the pixel itself. -/
theorem eq_of_pixelDiffs_eq_zero {cur prev : Pixel} (ha : cur.a = prev.a) (hr : (pixelDiffs cur prev).dr = 0)
    (hg : (pixelDiffs cur prev).dg = 0) (hb : (pixelDiffs cur prev).db = 0) : cur = prev := by
  cases cur
  cases prev
  simp only [Pixel.mk.injEq]
  exact ⟨eq_of_channelDiff_eq_zero hr, eq_of_channelDiff_eq_zero hg, eq_of_channelDiff_eq_zero hb, ha⟩

theorem selectChunk_ne_zero_diff {prev slot cur : Pixel} (hne : cur ≠ prev) :
    selectChunk prev slot cur ≠ .diff 2 2 2 := by
  intro e
  obtain ⟨hd, fr, fg, fb⟩ := selectChunk_eq_diff e
  obtain ⟨hr, hg, hb⟩ := biased_of_diffOk hd
  have two : ((2 : BitVec 2).toNat : Int) = 2 := rfl
  rw [← fr, two] at hr
  rw [← fg, two] at hg
  rw [← fb, two] at hb
  exact hne (eq_of_pixelDiffs_eq_zero ((diffOk_pixelDiffs_iff cur prev).1 hd).1 (by omega) (by omega) (by omega))

theorem selectChunk_ne_zero_luma {prev slot cur : Pixel} (hne : cur ≠ prev) :
    selectChunk prev slot cur ≠ .luma 32 8 8 := by
  intro e
  obtain ⟨hl, fg, fr, fb⟩ := selectChunk_eq_luma e
  obtain ⟨hg, hr, hb⟩ := biased_of_lumaOk hl
  have thirtyTwo : ((32 : BitVec 6).toNat : Int) = 32 := rfl
  have eight : ((8 : BitVec 4).toNat : Int) = 8 := rfl
  rw [← fg, thirtyTwo] at hg
  rw [← fr, eight] at hr
  rw [← fb, eight] at hb
  exact hne (eq_of_pixelDiffs_eq_zero ((lumaOk_pixelDiffs_iff cur prev).1 hl).1 (by omega) (by omega) (by omega))

end Sys2Proof.Machine

open Sys2Proof Sys2Proof.Machine

/-- Settles O22: by phase. -/
theorem pixStepOnlyWhenRequested : Obligations.PixStepOnlyWhenRequested :=
  fun _ cur => ⟨exec_pixStep_of_ne_pixels cur, exec_pixStep_of_pixels cur⟩

/-- Settles O13: the two fixed encodings are those of a zero difference, and each kind is selected where the tests
before it failed. -/
theorem neverProduced : Obligations.NeverProduced := by
  intro prev slot cur hne c d
  obtain ⟨hc, hw, -, -⟩ := selectChunk_ok prev slot cur
  have bytes_ne : ∀ {i : Instr}, i.isChunk = true → i.wellFormed = true → c ≠ i → encode c ≠ encode i :=
    fun hi hi' hci e => hci (encode_chunk_injective ⟨hc, hw⟩ ⟨hi, hi'⟩ e)
  exact ⟨bytes_ne (i := .diff 2 2 2) rfl rfl (selectChunk_ne_zero_diff hne),
    bytes_ne (i := .luma 32 8 8) rfl rfl (selectChunk_ne_zero_luma hne), fun _ _ _ => not_diffOk_of_selectChunk_luma,
    fun _ _ _ => not_diffOk_lumaOk_of_selectChunk_rgb, fun _ _ _ _ => alpha_ne_of_selectChunk_rgba,
    selectChunk_of_hit, hc, hw, selectChunk_isRun prev slot cur⟩

/-- Settles O14: the equation of each clause at the counter's values 62 and 61. -/
theorem capFlush : Obligations.CapFlush := by
  intro s cur hp
  have cap : runBytes 62 = [0xFD] := rfl
  refine ⟨fun hr hc => ?_, fun hr hc => ?_, fun hr hc => ?_, fun hr => ?_, capFlush_below, fun hr hc following => ?_⟩
  · rw [exec_pixStep_of_pixels cur hp, pixelOp_repeat_at_cap hc hr]
  · rw [exec_pixStep_of_pixels cur hp, pixelOp_other_eq hc, hr, cap]
  · rw [exec_pixStep_of_pixels cur hp, pixelOp_repeat_below hc (by rw [hr]; decide), hr]
    rfl
  · rw [exec_encEnd_of_ne_idle (by rw [hp]; decide), endOp_eq_runBytes, hr, cap]
  · have hr' : s.run ≠ 62 := by rw [hr]; decide
    have full : pixelOp cur s = { s with run := 62 } := by rw [pixelOp_repeat_below hc hr', hr]; rfl
    rw [full]
    exact pixelOp_out_at_cap following rfl

/-- Settles O15: the equation of clause 2 below the cap and at it. -/
theorem repeatOnlyCounts : Obligations.RepeatOnlyCounts := by
  intro s cur hp hr hg hb ha
  have hc : cur = s.prev := by cases cur; simp_all
  refine ⟨fun h => ?_, fun h => ?_, fun h => ?_, fun h => ?_⟩
  · rw [exec_pixStep_of_pixels cur hp, pixelOp_repeat_below hc h]
  · rw [exec_pixStep_of_pixels cur hp, pixelOp_repeat_at_cap hc h]
  · exact run_succ_toNat h
  · exact pixelOp_repeat_run hc h

/-- Settles O16: the equation of clauses 3 to 8. -/
theorem deferredFlush : Obligations.DeferredFlush := by
  intro s cur hp hne
  refine ⟨fun h _ => ?_, fun h => ?_, fun h => ?_⟩
  · rw [exec_pixStep_of_pixels cur hp, pixelOp_other_eq hne, runBytes_of_ne_zero h]
  · rw [exec_pixStep_of_pixels cur hp, pixelOp_other_eq hne, h, runBytes_zero, List.append_nil, ← h]
  · rw [capFlush_at_cap h, deferredFlush_none rfl]

/-- Settles O17: the five cases of the selector. -/
theorem chunkOfOnePixel : Obligations.ChunkOfOnePixel := by
  intro s cur hp hne idx dr dg db runByte emitted isDiff isLuma
  have emits : ∀ bytes, encode (selectChunk s.prev (cacheRead s idx) cur) = bytes →
      exec (.pixStep cur) s = emitted bytes := by
    rintro _ rfl
    rw [exec_pixStep_of_pixels cur hp, pixelOp_other_eq hne]
    rfl
  have hdiff : diffOk (pixelDiffs cur s.prev) = true ↔ cur.a = s.prev.a ∧ isDiff := by
    simp only [diffOk_pixelDiffs_iff, isDiff, dr, dg, db, and_assoc]
  have hluma : lumaOk (pixelDiffs cur s.prev) = true ↔ cur.a = s.prev.a ∧ isLuma := by
    simp only [lumaOk_pixelDiffs_iff, isLuma, dr, dg, db, and_assoc]
  obtain ⟨hs, e⟩ | ⟨hs, hd, e⟩ | ⟨hs, hd, hl, e⟩ | ⟨hs, hd, hl, ha, e⟩ | ⟨hs, hd, hl, ha, e⟩ :=
    selectChunk_cases s.prev (cacheRead s idx) cur
  · refine ⟨fun _ => emits _ ?_, absurd hs, absurd hs, absurd hs, absurd hs⟩
    rw [e, encode_index, BitVec.ofNat_toNat]
  · obtain ⟨ha, hin⟩ := hdiff.1 hd
    refine ⟨fun h => absurd h hs, fun _ _ _ => emits _ ?_, fun _ _ h => absurd hin h, fun _ _ h => absurd hin h,
      fun _ h => absurd ha h⟩
    obtain ⟨hr, hg, hb⟩ := biased_of_diffOk hd
    rw [e, encode_diff_ofInt, hr, hg, hb]
    rfl
  · obtain ⟨ha, hin⟩ := hluma.1 hl
    refine ⟨fun h => absurd h hs, fun _ _ h => ?_, fun _ _ _ _ => emits _ ?_, fun _ _ _ h => absurd hin h,
      fun _ h => absurd ha h⟩
    · exact absurd (hdiff.2 ⟨ha, h⟩) (ne_true_of_eq_false hd)
    obtain ⟨hg, hr, hb⟩ := biased_of_lumaOk hl
    rw [e, encode_luma_ofInt, hg, hr, hb]
    rfl
  · refine ⟨fun h => absurd h hs, fun _ _ h => ?_, fun _ _ _ h => ?_, fun _ _ _ _ => emits _ ?_, fun _ h => absurd ha h⟩
    · exact absurd (hdiff.2 ⟨ha, h⟩) (ne_true_of_eq_false hd)
    · exact absurd (hluma.2 ⟨ha, h⟩) (ne_true_of_eq_false hl)
    · rw [e]; rfl
  · refine ⟨fun h => absurd h hs, fun _ h => absurd h ha, fun _ h => absurd h ha, fun _ h => absurd h ha,
      fun _ _ => emits _ ?_⟩
    rw [e]; rfl

end

section
/-! PIX_STEP as its chunks, as the pseudocode on integers, and REP as its steps (spec/41_pixel_step.md R80,
spec/40_session_ops.md R76, R78, spec/30_encoding.md R59). -/

namespace Sys2Proof.Machine

/-! ### The chunks of a pixel executed one after the other (log entry 6) -/

theorem unbiased_eq {n bias : Nat} {f : BitVec n} {d : Int} (h : (f.toNat : Int) = d + bias) : unbiased bias f = d := by
  unfold unbiased
  omega

/-- A delta chunk whose differences lead to `cur` emits `cur`. -/
theorem emitDelta_of_diffs (i : Instr) {cur : Pixel} {s : State} (ha : cur.a = s.prev.a) :
    emitDelta i (pixelDiffs cur s.prev).dr (pixelDiffs cur s.prev).dg (pixelDiffs cur s.prev).db s =
      emitPixel i cur s := by
  obtain ⟨hp, hs⟩ := pixelAt_of_diffs (dr := (pixelDiffs cur s.prev).dr) (dg := (pixelDiffs cur s.prev).dg)
    (db := (pixelDiffs cur s.prev).db) (Config.freePixel s.free) rfl rfl rfl ha
  rw [emitDelta, if_pos hs, hp]

/-- The selected chunk, executed by itself, codes the pixel (R85, R86). -/
theorem exec_selectChunk (cur : Pixel) (s : State) :
    exec (selectChunk s.prev (cacheRead s (pixelHash cur)) cur) s = .next (codePixel cur s) := by
  unfold codePixel
  obtain ⟨hs, e⟩ | ⟨-, hd, e⟩ | ⟨-, -, hl, e⟩ | ⟨-, -, -, ha, e⟩ | ⟨-, -, -, -, e⟩ :=
    selectChunk_cases s.prev (cacheRead s (pixelHash cur)) cur <;> rw [e]
  · simp only [exec, execIndex, hs]
  · obtain ⟨hr, hg, hb⟩ := biased_of_diffOk hd
    simp only [exec, execDiff, unbiased_eq hr, unbiased_eq hg, unbiased_eq hb]
    rw [emitDelta_of_diffs _ ((diffOk_pixelDiffs_iff cur s.prev).1 hd).1]
    rfl
  · obtain ⟨hg, hr, hb⟩ := biased_of_lumaOk hl
    simp only [exec, execLuma, unbiased_eq hr, unbiased_eq hg, unbiased_eq hb, add_sub_cancel]
    rw [emitDelta_of_diffs _ ((lumaOk_pixelDiffs_iff cur s.prev).1 hl).1]
    rfl
  · simp only [exec, execRgb, ← ha]
    rfl
  · rfl

theorem exec_run_of_le {rl : BitVec 6} (s : State) (h : rl.toNat ≤ 61) :
    exec (.run rl) s = .next (setRun 0 (emit (encode (.run rl)) s)) := by
  simp only [exec, execRun, Instr.wellFormed, decide_eq_true h, if_true]

/-- The flushed RUN, executed by itself, is the flush (R101). -/
theorem execAll_flushedChunks {s : State} (h : s.run.toNat ≤ 62) :
    execAll (flushedChunks s.run) s = .next (if s.run = 0 then s else flushRun s) := by
  unfold flushedChunks
  split
  · rfl
  · next hr =>
    have := run_pred hr
    rw [execAll_singleton, exec_run_of_le s (by omega)]
    rfl

/-! ### The step in integers -/

theorem hash_eq (p : Pixel) : Ref.hash p = (pixelHash p).toFin := by
  apply Fin.ext
  change (p.r.toNat * 3 + p.g.toNat * 5 + p.b.toNat * 7 + p.a.toNat * 11) % 64 = (pixelHash p).toNat
  rw [pixelHash_toNat, hashSum]
  simp only [Nat.mul_comm]

/-- The bytes of the selected chunk are the ones the rules sum up in integers (R53, R85). -/
theorem chunk_eq (prev slot cur : Pixel) :
    Ref.chunk prev slot cur = (encode (selectChunk prev slot cur)).map BitVec.toNat := by
  have hdr : (pixelDiffs cur prev).dr = (cur.r.toNat : Int) - prev.r.toNat := rfl
  have hdg : (pixelDiffs cur prev).dg = (cur.g.toNat : Int) - prev.g.toNat := rfl
  have hdb : (pixelDiffs cur prev).db = (cur.b.toNat : Int) - prev.b.toNat := rfl
  have hdiff := diffOk_pixelDiffs_iff cur prev
  have hluma := lumaOk_pixelDiffs_iff cur prev
  simp only [and_assoc] at hdiff hluma
  simp only [Ref.chunk, ← hdiff, ← hluma]
  obtain ⟨hs, e⟩ | ⟨hs, hd, e⟩ | ⟨hs, hd, hl, e⟩ | ⟨hs, hd, hl, ha, e⟩ | ⟨hs, hd, hl, ha, e⟩ :=
    selectChunk_cases prev slot cur
  · rw [e, if_pos hs, encode_index_toNat, hash_eq]
    rfl
  · obtain ⟨hr, hg, hb⟩ := biased_of_diffOk hd
    rw [e, if_neg hs, if_pos hd, encode_diff_toNat]
    congr 1
    omega
  · obtain ⟨hg, hr, hb⟩ := biased_of_lumaOk hl
    rw [e, if_neg hs, if_neg (ne_true_of_eq_false hd), if_pos hl, encode_luma_toNat]
    congr 1
    · omega
    · congr 1
      omega
  · rw [e, if_neg hs, if_neg (ne_true_of_eq_false hd), if_neg (ne_true_of_eq_false hl), if_pos ha]
    rfl
  · rw [e, if_neg hs, if_neg (ne_true_of_eq_false hd), if_neg (ne_true_of_eq_false hl), if_neg ha]
    rfl

theorem of_run_eq_iff (s : State) (n : BitVec 6) : (Ref.of s).run = n.toNat ↔ s.run = n := BitVec.toNat_inj

theorem of_run_eq_zero_iff (s : State) : (Ref.of s).run = 0 ↔ s.run = 0 := of_run_eq_iff s 0

/-- The flush of a run in hand, in integers (R101). -/
theorem of_flushRun {s : State} (h : s.run ≠ 0) : Ref.of (flushRun s) = (Ref.of s).flush := by
  have hbyte : (encode (.run (s.run - 1))).map BitVec.toNat = [192 + (s.run.toNat - 1)] := by
    rw [encode_run_toNat, (run_pred h).1]
  rw [Ref.flush, if_neg (mt (of_run_eq_zero_iff s).1 h), Ref.of, flushRun_out, List.map_append, hbyte]
  rfl

theorem of_deferredFlush (s : State) : Ref.of (deferredFlush s) = (Ref.of s).flush := by
  by_cases h : s.run = 0
  · rw [deferredFlush_none h, Ref.flush, if_pos ((of_run_eq_zero_iff s).2 h)]
  · rw [deferredFlush_some h, of_flushRun h]

theorem of_capFlush (s : State) :
    Ref.of (capFlush s) = if (Ref.of s).run = 62 then (Ref.of s).flush else Ref.of s := by
  have hcap : (Ref.of s).run = 62 ↔ s.run = 62 := of_run_eq_iff s 62
  by_cases h : s.run = 62
  · rw [capFlush_at_cap h, of_flushRun (by rw [h]; decide), if_pos (hcap.2 h)]
  · rw [capFlush_below h, if_neg (mt hcap.1 h)]

/-- Clauses 4 to 8 and the update, in integers (R85, R86). -/
theorem of_codePixel (cur : Pixel) (s : State) : Ref.of (codePixel cur s) = { Ref.of s with
    prev := cur
    slot := fun i => if i = Ref.hash cur then cur else (Ref.of s).slot i
    out := (Ref.of s).out ++ Ref.chunk s.prev ((Ref.of s).slot (Ref.hash cur)) cur } := by
  have hslot : (Ref.of (codePixel cur s)).slot = fun i => if i = Ref.hash cur then cur else (Ref.of s).slot i := by
    funext i
    have hi : (pixelHash cur).toNat = i.val ↔ i = Ref.hash cur := by
      rw [hash_eq, Fin.ext_iff]
      exact eq_comm
    simp only [Ref.of, codePixel, commit_cache, Fin.getElem_fin, Vector.getElem_set, emit_cache]
    simp only [BitVec.val_toFin, hi]
  have hout : (Ref.of (codePixel cur s)).out =
      (Ref.of s).out ++ Ref.chunk s.prev ((Ref.of s).slot (Ref.hash cur)) cur := by
    rw [chunk_eq, hash_eq]
    exact List.map_append
  rw [← hslot, ← hout]
  rfl

theorem capFlush_run_lt {s : State} (hs : s.run.toNat ≤ 62) : (capFlush s).run.toNat < 62 := by
  by_cases h : s.run = 62
  · rw [capFlush_at_cap h, flushRun_run]
    decide
  · have : s.run.toNat ≠ 62 := fun e => h (BitVec.eq_of_toNat_eq e)
    rw [capFlush_below h]
    omega

/-- PIX_STEP's operation in integers (R80). -/
theorem of_pixelOp (cur : Pixel) {s : State} (hs : s.run.toNat ≤ 62) :
    Ref.of (pixelOp cur s) = (Ref.of s).pixel cur := by
  have hprev : (Ref.of (capFlush s)).prev = s.prev := capFlush_prev s
  rw [Ref.pixel, ← of_capFlush s]
  by_cases hc : cur = (Ref.of (capFlush s)).prev
  · rw [if_pos hc, pixelOp_repeat (hc.trans hprev), Ref.of, setRun_run, run_succ_toNat (capFlush_run_lt hs)]
    rfl
  · rw [if_neg hc, pixelOp_other (hprev ▸ hc), of_codePixel, ← of_deferredFlush]
    rfl

end Sys2Proof.Machine

open Sys2Proof Sys2Proof.Machine

/-- Settles O20: the flushes, then the counter or the chunk and the update, each in integers. -/
theorem pixelOpRefinesReference : Obligations.PixelOpRefinesReference := fun _ cur => of_pixelOp cur

/-- Settles O21: the flushed RUN and the selected chunk, each executed by itself. -/
theorem pixStepIsItsChunks : Obligations.PixStepIsItsChunks := by
  intro s cur hr hne
  have hflush := execAll_flushedChunks hr
  rw [flushedChunks] at hflush
  rw [execAll_append, hflush, pixelOp_other hne, flushes_eq]
  change execAll [_] _ = _
  rw [execAll_singleton]
  split
  · exact exec_selectChunk cur s
  · exact exec_selectChunk cur (flushRun s)

end

section
/-! The header and the chunks executed by themselves (spec/42_chunks.md R101 to R106, spec/40_session_ops.md R72, log
entries 3 and 6). -/

namespace Sys2Proof.Machine

/-! ### One equation a kind -/

theorem emitPixel_eq (i : Instr) (p : Pixel) (s : State) : emitPixel i p s = { s with
    out := s.out ++ encode i, prev := p, cache := s.cache.set (pixelHash p).toFin p } := rfl

theorem exec_header_eq (w h : Word) (c : Byte) (s : State) :
    exec (.header w h c) s = .next { s with out := s.out ++ encode (.header w h c) } := rfl

theorem exec_rgb_eq (r g b : Byte) (s : State) :
    exec (.rgb r g b) s = .next (emitPixel (.rgb r g b) ⟨r, g, b, s.prev.a⟩ s) := rfl

theorem exec_rgba_eq (r g b a : Byte) (s : State) :
    exec (.rgba r g b a) s = .next (emitPixel (.rgba r g b a) ⟨r, g, b, a⟩ s) := rfl

/-- The write back of what slot `idx` holds changes no slot (R102). -/
theorem exec_index_eq (idx : BitVec 6) (s : State) :
    exec (.index idx) s = .next { s with out := s.out ++ encode (.index idx), prev := cacheRead s idx } := by
  have hcache : (commit idx (cacheRead s idx) (emit (encode (.index idx)) s)).cache = s.cache :=
    cache_set_self s idx _ rfl
  simp only [exec, execIndex, Host.Outcome.next.injEq]
  rw [← hcache]
  rfl

theorem exec_diff_eq (fr fg fb : BitVec 2) (s : State) : exec (.diff fr fg fb) s =
    .next (emitDelta (.diff fr fg fb) (fr.toNat - 2) (fg.toNat - 2) (fb.toNat - 2) s) := rfl

theorem exec_luma_eq (lg : BitVec 6) (lr lb : BitVec 4) (s : State) : exec (.luma lg lr lb) s =
    .next (emitDelta (.luma lg lr lb) (lg.toNat - 32 + (lr.toNat - 8)) (lg.toNat - 32)
      (lg.toNat - 32 + (lb.toNat - 8)) s) := rfl

theorem exec_run_inv {rl : BitVec 6} {s t : State} (h : exec (.run rl) s = .next t) :
    t = { s with out := s.out ++ encode (.run rl), run := 0 } := by
  simp only [exec, execRun] at h
  split at h <;> cases h
  rfl

theorem exec_run_of_gt {rl : BitVec 6} (s : State) (h : 62 ≤ rl.toNat) :
    exec (.run rl) s = .refused .runLengthDoesNotExist := by
  have hw : (Instr.run rl).wellFormed = false := decide_eq_false (by omega)
  simp only [exec, execRun, hw]
  rfl

/-- All a chunk by itself can do. -/
theorem exec_chunk_cases {s t : State} {i : Instr} (hc : i.isChunk = true) (hx : exec i s = .next t) :
    (∃ rl, i = .run rl ∧ t = { s with out := s.out ++ encode i, run := 0 }) ∨
    (∃ idx, i = .index idx ∧ t = { s with out := s.out ++ encode i, prev := cacheRead s idx }) ∨
    (Safety.isRun i = false ∧ (∀ idx, i ≠ .index idx) ∧ ∃ p free, t = { s with
      out := s.out ++ encode i, prev := p, cache := s.cache.set (pixelHash p).toFin p, free := free }) := by
  cases i with
  | run rl => exact .inl ⟨rl, rfl, exec_run_inv hx⟩
  | index idx =>
    rw [exec_index_eq] at hx
    cases hx
    exact .inr (.inl ⟨idx, rfl, rfl⟩)
  | rgb | rgba => cases hx; exact .inr (.inr ⟨rfl, by simp, _, s.free, rfl⟩)
  | diff fr fg fb =>
    rw [exec_diff_eq, emitDelta_eq] at hx
    cases hx
    exact .inr (.inr ⟨rfl, by simp, _, _, rfl⟩)
  | luma lg lr lb =>
    rw [exec_luma_eq, emitDelta_eq] at hx
    cases hx
    exact .inr (.inr ⟨rfl, by simp, _, _, rfl⟩)
  | header | encStart | pixStep | encEnd | nop | rep => simp [Instr.isChunk] at hc

/-! ### The pixel of a DIFF or LUMA (R103, R104, log entry 3) -/

/-- A channel that stays in 0 to 255 is exact, whatever the free value. -/
theorem channelAt_getD {c : Byte} {d : Int} (free : Byte) (h : 0 ≤ (c.toNat : Int) + d)
    (h' : (c.toNat : Int) + d ≤ 255) : (((channelAt c d).getD free).toNat : Int) = c.toNat + d := by
  obtain ⟨x, hx⟩ := channelAt_isSome h h'
  rw [hx]
  exact channelAt_some hx

/-- If all three channels are stated there is a pixel at the differences. -/
theorem exists_of_pixelAtStated {p : Pixel} {dr dg db : Int} (h : pixelAtStated p dr dg db = true) :
    ∃ cur : Pixel, (cur.r.toNat : Int) = p.r.toNat + dr ∧ (cur.g.toNat : Int) = p.g.toNat + dg ∧
      (cur.b.toNat : Int) = p.b.toNat + db := by
  simp only [pixelAtStated, Bool.and_eq_true, Option.isSome_iff_exists] at h
  obtain ⟨⟨⟨r, hr⟩, g, hg⟩, b, hb⟩ := h
  exact ⟨⟨r, g, b, 0⟩, channelAt_some hr, channelAt_some hg, channelAt_some hb⟩

/-- Where no pixel lies at the differences a free value is drawn. -/
theorem emitDelta_of_not_stated (i : Instr) {dr dg db : Int} {s : State}
    (h : ∀ cur : Pixel, ¬ ((cur.r.toNat : Int) = s.prev.r.toNat + dr ∧ (cur.g.toNat : Int) = s.prev.g.toNat + dg ∧
      (cur.b.toNat : Int) = s.prev.b.toNat + db)) :
    emitDelta i dr dg db s =
      drawFree (emitPixel i (pixelAt s.prev dr dg db (Config.freePixel s.free)) s) := by
  have hs : ¬ pixelAtStated s.prev dr dg db = true := fun hs => by
    obtain ⟨cur, hcur⟩ := exists_of_pixelAtStated hs
    exact h cur hcur
  rw [emitDelta, if_neg hs]

/-! ### Bytes already in `out` (R33) -/

/-- A byte already in `out` reads as before where `out` only grew. -/
theorem outRead_of_prefix {s t : State} (h : s.out <+: t.out) {off : Nat} (ho : off < s.out.length) :
    outRead t off = outRead s off := by
  obtain ⟨bs, hbs⟩ := h
  rw [outRead, outRead, ← hbs, List.getElem?_append_left ho]

/-- A write to the slot of a pixel leaves every other slot alone. -/
theorem cacheRead_of_set {s t : State} {i j : BitVec 6} {p : Pixel} (h : t.cache = s.cache.set i.toFin p)
    (hij : j ≠ i) : cacheRead t j = cacheRead s j := by
  have hw : cacheRead t j = cacheRead (cacheWrite i p s) j := by simp only [cacheRead, h, cacheWrite_cache]
  rw [hw, cacheRead_cacheWrite_other p s hij.symm]

end Sys2Proof.Machine

open Sys2Proof Sys2Proof.Machine

/-- Settles O25: the header's record, written out. -/
theorem headerEmits : Obligations.HeaderEmits := fun s w h c => exec_header_eq w h c s

/-- Settles O26: the two records and the update, written out. -/
theorem literalsEmit : Obligations.LiteralsEmit := fun s r g b a => ⟨exec_rgb_eq r g b s, exec_rgba_eq r g b a s⟩

/-- Settles O27: the write back changes no slot. -/
theorem indexEmits : Obligations.IndexEmits := fun s idx => by rw [exec_index_eq, encode_index]

/-- Settles O28: the differences of the fields lead from `prev` to the pixel. -/
theorem deltasEmit : Obligations.DeltasEmit := by
  intro s cur ha
  refine ⟨fun fr fg fb hr hg hb => ?_, fun lg lr lb hg hr hb => ?_⟩
  · rw [exec_diff_eq, ← hr, ← hg, ← hb]
    exact congrArg Host.Outcome.next (emitDelta_of_diffs _ ha)
  · rw [exec_luma_eq, ← hr, ← hb, ← hg]
    exact congrArg Host.Outcome.next (emitDelta_of_diffs _ ha)

/-- Settles O29: a free value is drawn, and only for the channels out of range. -/
theorem deltasOutOfRangeStillRun : Obligations.DeltasOutOfRangeStillRun := by
  intro s i dr dg db hi hout
  have hx : exec i s = .next (emitDelta i dr dg db s) := by
    obtain ⟨fr, fg, fb, rfl, rfl, rfl, rfl⟩ | ⟨lg, lr, lb, rfl, rfl, rfl, rfl⟩ := hi
    · exact exec_diff_eq fr fg fb s
    · exact exec_luma_eq lg lr lb s
  rw [hx, emitDelta_of_not_stated i hout]
  exact ⟨_, rfl, rfl, channelAt_getD _, channelAt_getD _, channelAt_getD _⟩

/-- Settles O30: by the length of the run. -/
theorem runEmits : Obligations.RunEmits := by
  refine fun s rl => ⟨fun h => ?_, exec_run_of_gt s⟩
  rw [exec_run_of_le s h, encode_run]
  rfl

/-- Settles O31: RUN, INDEX, and the chunks that write a slot. -/
theorem chunkFrame : Obligations.ChunkFrame := by
  intro s t i hc hx
  obtain ⟨rl, rfl, rfl⟩ | ⟨idx, rfl, rfl⟩ | ⟨hrun, hidx, p, free, rfl⟩ := exec_chunk_cases hc hx
  · exact ⟨rfl, rfl, rfl, rfl, rfl, rfl, rfl, rfl, rfl, fun _ => outRead_of_prefix ⟨_, rfl⟩, fun _ => rfl,
      nofun, fun _ _ => rfl, fun _ => rfl, fun _ => rfl⟩
  · exact ⟨rfl, rfl, rfl, rfl, rfl, rfl, rfl, rfl, rfl, fun _ => outRead_of_prefix ⟨_, rfl⟩, fun _ => rfl,
      fun _ => rfl, fun _ _ => rfl, fun _ => rfl, nofun⟩
  · have hne : ¬ Safety.isRun i = true := ne_true_of_eq_false hrun
    exact ⟨rfl, rfl, rfl, rfl, rfl, rfl, rfl, rfl, rfl, fun _ => outRead_of_prefix ⟨_, rfl⟩, fun _ => rfl,
      fun _ => rfl, fun _ => cacheRead_of_set rfl, fun h => h.elim (absurd · hne) fun ⟨idx, h⟩ => absurd h (hidx idx),
      fun h => absurd h hne⟩

end

section
/-! The sequencer, and the steps of a REP (spec/40_session_ops.md R73, spec/30_encoding.md R59). -/

namespace Sys2Proof.Machine

open Safety (position gridSize positionInGrid)

/-! ### Positions -/

@[simp] theorem position_pixelOp (cur : Pixel) (s : State) : position (pixelOp cur s) = position s := by
  simp [position]

@[simp] theorem gridSize_pixelOp (cur : Pixel) (s : State) : gridSize (pixelOp cur s) = gridSize s := by
  simp [gridSize]

@[simp] theorem gridSize_advance (s : State) : gridSize (advance s) = gridSize s := by
  simp [gridSize]

theorem positionInGrid_pixelOp {s : State} (cur : Pixel) (hg : positionInGrid s) : positionInGrid (pixelOp cur s) := by
  simpa [positionInGrid] using hg

/-- A row or column with another one behind it counts without wrapping. -/
theorem word_succ_toNat {x y : Word} (h : x.toNat + 1 < y.toNat) : (x + 1).toNat = x.toNat + 1 := by
  have := y.isLt
  rw [BitVec.toNat_add]
  exact Nat.mod_eq_of_lt (by simp; omega)

theorem position_lt_gridSize {s : State} (hg : positionInGrid s) : position s < gridSize s := by
  obtain ⟨hrow, hcol⟩ := hg
  calc position s < (s.row.toNat + 1) * s.width.toNat := by rw [position, Nat.succ_mul]; omega
    _ ≤ s.height.toNat * s.width.toNat := Nat.mul_le_mul_right _ hrow
    _ = gridSize s := Nat.mul_comm _ _

/-- The advance from a position in the grid: to the next one in row-major order, or from the last one to the end of
the encode (R73). -/
theorem advance_cases_inGrid {s : State} (hg : positionInGrid s) :
    (position s + 1 < gridSize s ∧ (advance s).phase = s.phase ∧ (advance s).run = s.run ∧ (advance s).out = s.out ∧
      positionInGrid (advance s) ∧ position (advance s) = position s + 1) ∨
    (position s + 1 = gridSize s ∧ advance s = endOp s) := by
  obtain ⟨hrow, hcol⟩ := hg
  obtain ⟨h, e⟩ | ⟨h, h', e⟩ | ⟨h, h', e⟩ := advance_cases s
  · have hpos : position (advance s) = position s + 1 := by
      simp only [e, position, setPosition_row, setPosition_col, setPosition_width, word_succ_toNat h, Nat.add_assoc]
    have hin : positionInGrid (advance s) := by
      rw [e]
      exact ⟨hrow, (word_succ_toNat h).trans_lt h⟩
    have hlt : position (advance s) < gridSize (advance s) := position_lt_gridSize hin
    rw [hpos, gridSize_advance] at hlt
    exact .inl ⟨hlt, by rw [e]; rfl, by rw [e]; rfl, by rw [e]; rfl, hin, hpos⟩
  · have hlast : s.col.toNat + 1 = s.width.toNat := by omega
    have hpos : position (advance s) = position s + 1 := by
      have zero : (0 : Word).toNat = 0 := rfl
      simp only [e, position, setPosition_row, setPosition_col, setPosition_width, word_succ_toNat h', zero,
        Nat.add_assoc, hlast, Nat.succ_mul, Nat.add_zero]
    have hin : positionInGrid (advance s) := by
      rw [e]
      exact ⟨(word_succ_toNat h').trans_lt h', Nat.zero_lt_of_lt hcol⟩
    have hlt : position (advance s) < gridSize (advance s) := position_lt_gridSize hin
    rw [hpos, gridSize_advance] at hlt
    exact .inl ⟨hlt, by rw [e]; rfl, by rw [e]; rfl, by rw [e]; rfl, hin, hpos⟩
  · have hlast : s.col.toNat + 1 = s.width.toNat := by omega
    have hbottom : s.row.toNat + 1 = s.height.toNat := by omega
    refine .inr ⟨?_, e⟩
    rw [position, gridSize, Nat.add_assoc, hlast, ← Nat.add_one_mul, hbottom, Nat.mul_comm]

/-- A PIX_STEP from a position in the grid: the next position, or the end of the encode with nothing deferred. -/
theorem pixStep_cases_inGrid {s : State} (cur : Pixel) (hp : s.phase = .pixels) (hg : positionInGrid s) :
    let t := advance (pixelOp cur s)
    (position s + 1 < gridSize s ∧ t.phase = .pixels ∧ positionInGrid t ∧ position t = position s + 1) ∨
    (position s + 1 = gridSize s ∧ t.phase = .done ∧ t.run = 0) := by
  intro t
  obtain ⟨h, hph, -, -, hin, hpos⟩ | ⟨h, e⟩ := advance_cases_inGrid (positionInGrid_pixelOp cur hg)
  · exact .inl ⟨by simpa using h, by rw [hph, pixelOp_phase, hp], hin, by simpa using hpos⟩
  · refine .inr ⟨by simpa using h, ?_, ?_⟩
    · simp only [t, e, endOp_phase]
    · simp only [t, e, endOp_eq]

/-! ### What the next operation is -/

theorem fetch_of_no_event {s : State} (hh : s.host = []) : fetch s = sequencer s := by simp only [fetch, hh]

theorem fetch_of_event {s : State} {e : HostEvent} {es : List HostEvent} (hh : s.host = e :: es) :
    fetch s = atPorts e (setHost es s) := by simp only [fetch, hh]

theorem step_of_fetch_op {s t : State} {i : Instr} (h : fetch s = .op i t) : step s = exec i t := by
  simp only [step, h]

theorem step_of_fetch_refused {s : State} {q : Refusal} (h : fetch s = .refused q) : step s = .refused q := by
  simp only [step, h]

theorem sequencer_of_answer {s : State} {cur : Pixel} (hp : s.phase = .pixels) (hg : positionInGrid s)
    (hr : Memory.read s.src (s.row.toNat, s.col.toNat) = some cur) : sequencer s = .op (.pixStep cur) s := by
  simp only [sequencer, hp, (inGrid_iff s).2 hg, hr, if_true]

theorem sequencer_of_silence {s : State} (hp : s.phase = .pixels) (hg : positionInGrid s)
    (hr : Memory.read s.src (s.row.toNat, s.col.toNat) = none) : sequencer s = .fault .pixelSourceSilent := by
  simp only [sequencer, hp, (inGrid_iff s).2 hg, hr, if_true]

/-- A step of the sequencer in PIXELS, on the pixel the source answers (R73). -/
theorem step_of_answer {s : State} {cur : Pixel} (hh : s.host = []) (hp : s.phase = .pixels) (hg : positionInGrid s)
    (hr : Memory.read s.src (s.row.toNat, s.col.toNat) = some cur) : step s = .next (advance (pixelOp cur s)) := by
  rw [step_of_fetch_op ((fetch_of_no_event hh).trans (sequencer_of_answer hp hg hr)), exec_pixStep_of_pixels cur hp]

theorem step_of_silence {s : State} (hh : s.host = []) (hp : s.phase = .pixels) (hg : positionInGrid s)
    (hr : Memory.read s.src (s.row.toNat, s.col.toNat) = none) : step s = .fault .pixelSourceSilent := by
  simp only [step, fetch_of_no_event hh, sequencer_of_silence hp hg hr]

/-- The sequencer issues PIX_STEP and NOP only (R73). -/
theorem sequencer_ne_encEnd (s t : State) : sequencer s ≠ .op .encEnd t := by
  obtain ⟨-, e⟩ | ⟨-, -, cur, -, e⟩ | ⟨-, f, e⟩ := sequencer_cases s <;> rw [e] <;> simp

/-! ### REP -/

/-- If REP answers next, it is that many PIX_STEPs (R59). -/
theorem exec_rep_inv {n : Nat} {cur : Pixel} {s t : State} (hx : exec (.rep n cur.r cur.g cur.b cur.a) s = .next t) :
    t = (fun u => advance (pixelOp cur u))^[n] s := by
  induction n generalizing s with
  | zero => cases hx; rfl
  | succ n ih =>
    rw [exec_rep_succ] at hx
    cases hp : exec (.pixStep cur) s with
    | next u =>
      rw [hp] at hx
      obtain ⟨-, rfl⟩ := exec_pixStep_inv hp
      exact ih hx
    | fault f => rw [hp] at hx; cases hx
    | refused q => rw [hp] at hx; cases hx

theorem exec_rep_succ_of_pixels (n : Nat) (cur : Pixel) {s : State} (hp : s.phase = .pixels) :
    exec (.rep (n + 1) cur.r cur.g cur.b cur.a) s =
      exec (.rep n cur.r cur.g cur.b cur.a) (advance (pixelOp cur s)) := by
  rw [exec_rep_succ_andThen, exec_pixStep_of_pixels cur hp]
  rfl

theorem exec_rep_succ_of_ne_pixels (n : Nat) (cur : Pixel) {s : State} (hp : s.phase ≠ .pixels) :
    exec (.rep (n + 1) cur.r cur.g cur.b cur.a) s = .refused .pixelNotRequested := by
  rw [exec_rep_succ_andThen, exec_pixStep_of_ne_pixels cur hp]
  rfl

/-- As many pixels as the grid has left, or fewer, are all taken. -/
theorem exec_rep_of_le {n : Nat} (cur : Pixel) {s : State} (hp : s.phase = .pixels) (hg : positionInGrid s)
    (hn : position s + n ≤ gridSize s) : exec (.rep n cur.r cur.g cur.b cur.a) s =
      .next ((fun t => advance (pixelOp cur t))^[n] s) := by
  induction n generalizing s with
  | zero => rfl
  | succ n ih =>
    rw [exec_rep_succ_of_pixels n cur hp]
    obtain ⟨-, hph, hin, hpos⟩ | ⟨hlast, -⟩ := pixStep_cases_inGrid cur hp hg
    · rw [ih hph hin (by simp; omega)]
      rfl
    · obtain rfl : n = 0 := by omega
      rfl

/-- One more than the grid has left meets the phase DONE. -/
theorem exec_rep_of_gt {n : Nat} (cur : Pixel) {s : State} (hp : s.phase = .pixels) (hg : positionInGrid s)
    (hn : gridSize s < position s + n) : exec (.rep n cur.r cur.g cur.b cur.a) s = .refused .pixelNotRequested := by
  induction n generalizing s with
  | zero => exact absurd (position_lt_gridSize hg) (by omega)
  | succ n ih =>
    rw [exec_rep_succ_of_pixels n cur hp]
    obtain ⟨-, hph, hin, hpos⟩ | ⟨hlast, hph, -⟩ := pixStep_cases_inGrid cur hp hg
    · exact ih hph hin (by simp; omega)
    · obtain ⟨m, rfl⟩ : ∃ m, n = m + 1 := ⟨n - 1, by omega⟩
      exact exec_rep_succ_of_ne_pixels m cur (by rw [hph]; decide)

/-! ### The frame of PIX_STEP and REP (R11, R13, R15, R33) -/

/-- What steps on one pixel leave alone. -/
structure PixelFrame (cur : Pixel) (s t : State) : Prop where
  width : t.width = s.width
  height : t.height = s.height
  channels : t.channels = s.channels
  src : t.src = s.src
  host : t.host = s.host
  free : t.free = s.free
  out : s.out <+: t.out
  slots : ∀ idx, idx ≠ pixelHash cur → cacheRead t idx = cacheRead s idx
  onRepeat : cur = s.prev → t.prev = s.prev ∧ t.cache = s.cache

theorem PixelFrame.refl (cur : Pixel) (s : State) : PixelFrame cur s s :=
  ⟨rfl, rfl, rfl, rfl, rfl, rfl, List.prefix_rfl, fun _ _ => rfl, fun _ => ⟨rfl, rfl⟩⟩

theorem PixelFrame.pixStep {cur : Pixel} {s t : State} (h : PixelFrame cur s t) :
    PixelFrame cur s (advance (pixelOp cur t)) where
  width := by simp [h.width]
  height := by simp [h.height]
  channels := by simp [h.channels]
  src := by simp [h.src]
  host := by simp [h.host]
  free := by simp [h.free]
  out := h.out.trans ((out_prefix_pixelOp cur t).trans (out_prefix_advance _))
  slots idx hidx := by rw [cacheRead_advance, pixelOp_cacheRead, if_neg hidx, ite_self, h.slots idx hidx]
  onRepeat hc := by
    obtain ⟨hprev, hcache⟩ := h.onRepeat hc
    rw [advance_prev, advance_cache, pixelOp_prev, pixelOp_cache, if_pos (hc.trans hprev.symm)]
    exact ⟨hc, hcache⟩

theorem pixelFrame_of_pixStep {cur : Pixel} {s t : State} (hx : exec (.pixStep cur) s = .next t) :
    PixelFrame cur s t := by
  obtain ⟨-, rfl⟩ := exec_pixStep_inv hx
  exact (PixelFrame.refl cur s).pixStep

theorem pixelFrame_of_rep {n : Nat} {cur : Pixel} {s t : State}
    (hx : exec (.rep n cur.r cur.g cur.b cur.a) s = .next t) : PixelFrame cur s t := by
  rw [exec_rep_inv hx]
  exact Function.Iterate.rec (PixelFrame cur s) (PixelFrame.refl cur s) (fun _ => PixelFrame.pixStep) n

end Sys2Proof.Machine

open Sys2Proof Sys2Proof.Machine

/-- Settles O38: the sequencer's choice by what the source answers, then the advance by position. -/
theorem sequencerIsRowMajor : Obligations.SequencerIsRowMajor := by
  refine ⟨fun s hh hp => step_of_no_event hp hh, fun s cur hh hp hg hr => ⟨?_, step_of_answer hh hp hg hr⟩,
    fun s => step_of_silence, fun s h => ⟨?_, word_succ_toNat h⟩, fun s h h' => ⟨?_, word_succ_toNat h'⟩,
    fun s h h' => ?_, fun s hg h => ?_, fun s hg h => ?_⟩
  · rw [step_of_answer hh hp hg hr, exec_pixStep_of_pixels cur hp]
  · obtain ⟨-, e⟩ | ⟨hn, -⟩ | ⟨hn, -⟩ := advance_cases s
    · exact e
    · exact absurd h hn
    · exact absurd h hn
  · obtain ⟨hcol, -⟩ | ⟨-, -, e⟩ | ⟨-, hn, -⟩ := advance_cases s
    · exact absurd hcol h
    · exact e
    · exact absurd h' hn
  · obtain ⟨hcol, -⟩ | ⟨-, hrow, -⟩ | ⟨-, -, e⟩ := advance_cases s
    · exact absurd hcol h
    · exact absurd hrow h'
    · exact e
  · obtain ⟨-, hph, -, -, hin, hpos⟩ | ⟨hlast, -⟩ := advance_cases_inGrid hg
    · exact ⟨hph, hin, hpos⟩
    · omega
  · obtain ⟨hlt, -⟩ | ⟨-, e⟩ := advance_cases_inGrid hg
    · omega
    · exact e

/-- Settles O24, by induction on the number of pixels. -/
theorem repIsItsSteps : Obligations.RepIsItsSteps := by
  refine fun s n cur => ⟨?_, exec_rep_of_le cur, exec_rep_of_gt cur⟩
  rintro rfl
  rfl

/-- Settles O23: the frame of one step, kept along those of a REP. -/
theorem pixStepFrame : Obligations.PixStepFrame := by
  intro s t i cur hi hx
  have frame : PixelFrame cur s t := by
    obtain rfl | ⟨n, rfl⟩ := hi
    · exact pixelFrame_of_pixStep hx
    · exact pixelFrame_of_rep hx
  exact ⟨frame.width, frame.height, frame.channels, frame.src, frame.host, frame.free, fun _ => by rw [frame.src],
    fun _ => outRead_of_prefix frame.out, frame.slots, frame.onRepeat⟩

end

section
/-! The session operations, and what every instruction keeps (spec/40_session_ops.md R71 to R78,
spec/60_exceptions.md R130). -/

namespace Sys2Proof.Machine

/-- ENC_END in the spelling of R74. -/
theorem endOp_eq_ite (s : State) : endOp s = { s with
    out := if s.run = 0 then s.out else s.out ++ [0xC0 ||| (s.run - 1).setWidth 8], run := 0, phase := .done } := by
  rw [endOp_eq_runBytes]
  split
  · next h => rw [h, runBytes_zero, List.append_nil]
  · next h => rw [runBytes_of_ne_zero h]

theorem answered_cases (row col : Word) (cur : Pixel) (s : State) :
    answered row col cur s = .op (.pixStep cur) s ∨ ∃ q, answered row col cur s = .refused q := by
  unfold answered
  split
  · exact .inr ⟨_, rfl⟩
  · split
    · exact .inl rfl
    · exact .inr ⟨_, rfl⟩

/-- All an event at the ports can lead to: a reset or an operation on the state as it stands, or a stop. The ports of
the hardware do not issue ENC_END (R74). -/
theorem atPorts_cases (e : HostEvent) (s : State) : atPorts e s = .reset s ∨
    (∃ i, atPorts e s = .op i s ∧ (Safety.isPortEvent e = true → i ≠ .encEnd)) ∨
    (∃ f, atPorts e s = .fault f) ∨ ∃ q, atPorts e s = .refused q := by
  cases e with
  | rst => exact .inl rfl
  | start | wait => exact .inr (.inl ⟨_, rfl, fun _ => nofun⟩)
  | answer row col cur =>
    obtain h | ⟨q, h⟩ := answered_cases row col cur s
    · exact .inr (.inl ⟨_, h, fun _ => nofun⟩)
    · exact .inr (.inr (.inr ⟨q, h⟩))
  | take =>
    by_cases h : doneOutput s = true
    · exact .inr (.inl ⟨.nop, if_pos h, fun _ => nofun⟩)
    · exact .inr (.inr (.inr ⟨.resultNotReady, if_neg h⟩))
  | go =>
    obtain ⟨-, h⟩ | ⟨-, -, cur, -, h⟩ | ⟨-, f, h⟩ := sequencer_cases s
    · exact .inr (.inl ⟨_, h, fun _ => nofun⟩)
    · exact .inr (.inl ⟨_, h, fun _ => nofun⟩)
    · exact .inr (.inr (.inl ⟨f, h⟩))
  | word sp bs =>
    cases hd : decode sp bs with
    | ok r => exact .inr (.inl ⟨r.1, by simp only [atPorts, decoded, hd], nofun⟩)
    | error why => exact .inr (.inr (.inr ⟨.undecodable why, by simp only [atPorts, decoded, hd]⟩))

theorem atPorts_ne_encEnd {e : HostEvent} (he : Safety.isPortEvent e = true) (s t : State) :
    atPorts e s ≠ .op .encEnd t := by
  obtain h | ⟨i, h, hi⟩ | ⟨f, h⟩ | ⟨q, h⟩ := atPorts_cases e s
  · rw [h]; nofun
  · rw [h]
    intro e
    cases e
    exact hi he rfl
  · rw [h]; nofun
  · rw [h]; nofun

/-! ### What no instruction changes (R15, R30, R43) -/

/-- The surroundings are held by every instruction, the latches by every one but ENC_START. -/
theorem exec_held {s t : State} {i : Instr} (hx : exec i s = .next t) : t.src = s.src ∧ t.host = s.host ∧
    ((∃ w h c, i = .encStart w h c) ∨ (t.width = s.width ∧ t.height = s.height ∧ t.channels = s.channels)) := by
  cases i with
  | rgb | rgba | index | diff | luma | run =>
    obtain ⟨_, -, rfl⟩ | ⟨_, -, rfl⟩ | ⟨-, -, _, _, rfl⟩ := exec_chunk_cases rfl hx <;>
      exact ⟨rfl, rfl, .inr ⟨rfl, rfl, rfl⟩⟩
  | header | nop => cases hx; exact ⟨rfl, rfl, .inr ⟨rfl, rfl, rfl⟩⟩
  | encStart w h c =>
    obtain ⟨-, rfl⟩ := exec_encStart_inv hx
    rw [startOp_eq]
    exact ⟨rfl, rfl, .inl ⟨w, h, c, rfl⟩⟩
  | encEnd =>
    obtain ⟨-, rfl⟩ := exec_encEnd_inv hx
    rw [endOp_eq]
    exact ⟨rfl, rfl, .inr ⟨rfl, rfl, rfl⟩⟩
  | pixStep cur =>
    have frame := pixelFrame_of_pixStep hx
    exact ⟨frame.src, frame.host, .inr ⟨frame.width, frame.height, frame.channels⟩⟩
  | rep n r g b a =>
    have frame := pixelFrame_of_rep (cur := ⟨r, g, b, a⟩) hx
    exact ⟨frame.src, frame.host, .inr ⟨frame.width, frame.height, frame.channels⟩⟩

/-! ### No fault, and which refusals (R130) -/

theorem exec_rep_ne_fault (n : Nat) (cur : Pixel) (s : State) (f : Fault) :
    exec (.rep n cur.r cur.g cur.b cur.a) s ≠ .fault f := by
  induction n generalizing s with
  | zero => nofun
  | succ n ih =>
    by_cases hp : s.phase = .pixels
    · rw [exec_rep_succ_of_pixels n cur hp]
      exact ih _
    · rw [exec_rep_succ_of_ne_pixels n cur hp]
      nofun

theorem exec_ne_fault (i : Instr) (s : State) (f : Fault) : exec i s ≠ .fault f := by
  cases i with
  | header | rgb | rgba | index | diff | luma | nop => nofun
  | run rl =>
    simp only [exec, execRun]
    split <;> nofun
  | encStart w h c =>
    by_cases hp : s.phase = .pixels
    · rw [exec_encStart_of_pixels w h c hp]; nofun
    · rw [exec_encStart_of_ne_pixels w h c hp]; nofun
  | pixStep cur =>
    by_cases hp : s.phase = .pixels
    · rw [exec_pixStep_of_pixels cur hp]; nofun
    · rw [exec_pixStep_of_ne_pixels cur hp]; nofun
  | encEnd =>
    by_cases hp : s.phase = .idle
    · rw [exec_encEnd_of_idle hp]; nofun
    · rw [exec_encEnd_of_ne_idle hp]; nofun
  | rep n r g b a => exact exec_rep_ne_fault n ⟨r, g, b, a⟩ s f

/-! ### The bytes of a pixel from `prev`, `run` and the cache alone (R78) -/

theorem stepChunks_congr {s t : State} (cur : Pixel) (hprev : s.prev = t.prev) (hrun : s.run = t.run)
    (hcache : s.cache = t.cache) : stepChunks cur s = stepChunks cur t := by
  simp only [stepChunks, cacheRead, hprev, hrun, hcache]

/-! ### Images of alpha 255 (R76) -/

theorem opaqueOnly_startOp (w h : Word) (c : Byte) (s : State) : Safety.opaqueOnly (startOp w h c s) := by
  rw [startOp_eq]
  exact ⟨rfl, fun i => .inl (by simp [cacheRead])⟩

theorem opaqueOnly_pixelOp {s : State} {cur : Pixel} (hs : Safety.opaqueOnly s) (ha : cur.a = 255) :
    Safety.opaqueOnly (pixelOp cur s) := by
  obtain ⟨-, hslots⟩ := hs
  refine ⟨by rw [pixelOp_prev, ha], fun i => ?_⟩
  rw [pixelOp_cacheRead]
  split_ifs
  · exact hslots i
  · exact .inr ha
  · exact hslots i

end Sys2Proof.Machine

open Sys2Proof Sys2Proof.Machine

/-- Settles O33: what ENC_START leaves of a state is its surroundings. -/
theorem encStartForgets : Obligations.EncStartForgets := by
  intro s t w h c hs ht hsrc hhost hfree
  rw [exec_encStart_of_ne_pixels w h c hs, exec_encStart_of_ne_pixels w h c ht, startOp_eq, startOp_eq, hsrc, hhost,
    hfree]

/-- Settles O35: by phase, and neither the ports nor the sequencer issue it. -/
theorem encEndFlushes : Obligations.EncEndFlushes :=
  ⟨fun s hp => by rw [exec_encEnd_of_ne_idle hp, endOp_eq_ite], fun _ => exec_encEnd_of_idle,
    fun s t _ he => atPorts_ne_encEnd he s t, sequencer_ne_encEnd⟩

/-- Settles O36: the equation of each of the four. -/
theorem sessionFrame : Obligations.SessionFrame := by
  rintro s t i (⟨w, h, c, rfl⟩ | ⟨w, h, c, rfl⟩ | rfl | rfl) hx
  · cases hx
    exact ⟨rfl, rfl, rfl, fun _ => rfl,
      fun _ => ⟨rfl, rfl, rfl, rfl, rfl, rfl, rfl, fun _ => outRead_of_prefix ⟨_, rfl⟩⟩,
      fun _ => ⟨rfl, rfl⟩⟩
  · obtain ⟨-, rfl⟩ := exec_encStart_inv hx
    rw [startOp_eq]
    exact ⟨rfl, rfl, rfl, fun _ => rfl, fun hi => absurd rfl (hi w h c), fun hi => by simp at hi⟩
  · obtain ⟨-, rfl⟩ := exec_encEnd_inv hx
    have hout := out_prefix_endOp s
    exact ⟨endOp_src s, endOp_host s, endOp_free s, fun _ => by rw [endOp_src], fun _ => ⟨endOp_prev s, endOp_cache s,
      endOp_width s, endOp_height s, endOp_channels s, endOp_row s, endOp_col s, fun _ => outRead_of_prefix hout⟩,
      fun hi => by simp at hi⟩
  · cases hx
    exact ⟨rfl, rfl, rfl, fun _ => rfl, fun _ => ⟨rfl, rfl, rfl, rfl, rfl, rfl, rfl, fun _ _ => rfl⟩,
      fun _ => ⟨rfl, rfl⟩⟩

/-- Settles O37: by definition. -/
theorem nopChangesNothing : Obligations.NopChangesNothing := fun _ => rfl

/-- Settles O46: instruction by instruction. -/
theorem latchesAndSourceHeld : Obligations.LatchesAndSourceHeld := fun _ _ _ => exec_held

/-- Settles O47: no instruction faults, and each refusal is that of its instruction in its phase. -/
theorem noExceptions : Obligations.NoExceptions := by
  refine fun s i => ⟨exec_ne_fault i s, fun q hx => ?_⟩
  cases i with
  | header | rgb | rgba | index | diff | luma | nop => cases hx
  | run rl =>
    refine .inr (.inr (.inr (.inr (Bool.eq_false_iff.2 fun hw => ?_))))
    rw [exec_run_of_le s (of_decide_eq_true hw)] at hx
    cases hx
  | encStart w h c =>
    refine .inl ⟨⟨w, h, c, rfl⟩, not_not.1 fun hp => ?_⟩
    rw [exec_encStart_of_ne_pixels w h c hp] at hx
    cases hx
  | pixStep cur =>
    refine .inr (.inr (.inl ⟨⟨cur, rfl⟩, fun hp => ?_⟩))
    rw [exec_pixStep_of_pixels cur hp] at hx
    cases hx
  | encEnd =>
    refine .inr (.inl ⟨rfl, not_not.1 fun hp => ?_⟩)
    rw [exec_encEnd_of_ne_idle hp] at hx
    cases hx
  | rep n r g b a =>
    refine .inr (.inr (.inr (.inl ⟨n, r, g, b, a, rfl, Nat.pos_of_ne_zero ?_⟩)))
    rintro rfl
    cases hx

/-- Settles O53: alpha 255 stays in `prev` and in the written slots, and the untouched slots have alpha 0. -/
theorem opaqueImages : Obligations.OpaqueImages := by
  refine ⟨fun s t w h c hx => ?_,
    fun s cur hs ha => ⟨opaqueOnly_pixelOp hs ha, fun r g b a e => ?_, fun hslot idx e => ?_⟩⟩
  · obtain ⟨-, rfl⟩ := exec_encStart_inv hx
    exact opaqueOnly_startOp w h c s
  · obtain ⟨hprev, -⟩ := hs
    exact alpha_ne_of_selectChunk_rgba e (ha.trans hprev.symm)
  · obtain ⟨hhit, -⟩ := selectChunk_eq_index e
    rw [← hhit, hslot] at ha
    simp at ha

/-- Settles O54: the chunks of the step and the three registers depend on the three registers only. -/
theorem bodyIgnoresShapeAndChannels : Obligations.BodyIgnoresShapeAndChannels := by
  intro s t cur hprev hrun hcache
  refine ⟨(stepChunks cur s).flatMap encode, pixelOp_out cur s, ?_, ?_, ?_, ?_⟩
  · rw [pixelOp_out, stepChunks_congr cur hprev hrun hcache]
  · rw [pixelOp_prev, pixelOp_prev]
  · rw [pixelOp_run, pixelOp_run, hprev, hrun]
  · rw [pixelOp_cache, pixelOp_cache, hprev, hcache]

end

section
/-! One step of the machine, event by event (spec/70_reset_and_hazards.md R153, spec/43_serializer_output.md R124). -/

namespace Sys2Proof.Machine

/-! ### The events at the ports -/

theorem pixelRequest_of_pixels {s : State} (h : s.phase = .pixels) : pixelRequest s = some (s.row, s.col) := by
  simp only [pixelRequest, h]

theorem pixelRequest_of_ne_pixels {s : State} (h : s.phase ≠ .pixels) : pixelRequest s = none := by
  cases hp : s.phase with
  | idle => exact pixelRequest_of_idle hp
  | pixels => exact absurd hp h
  | done => exact pixelRequest_of_done hp

theorem result_of_ne_done {s : State} (h : s.phase ≠ .done) : result s = none := by
  cases hp : s.phase with
  | idle => exact result_of_idle hp
  | pixels => simp only [result, hp]
  | done => exact absurd hp h

theorem step_of_answer_not_requested {s : State} {es : List HostEvent} {row col : Word} {cur : Pixel}
    (hh : s.host = .answer row col cur :: es) (hp : s.phase ≠ .pixels) : step s = .refused .pixelNotRequested := by
  have hreq : pixelRequest (setHost es s) = none := pixelRequest_of_ne_pixels hp
  exact step_of_fetch_refused ((fetch_of_event hh).trans (by simp only [atPorts, answered, hreq]))

theorem step_of_answer_requested {s : State} {es : List HostEvent} {cur : Pixel}
    (hh : s.host = .answer s.row s.col cur :: es) (hp : s.phase = .pixels) :
    step s = exec (.pixStep cur) (setHost es s) := by
  have hreq : pixelRequest (setHost es s) = some (s.row, s.col) := pixelRequest_of_pixels hp
  exact step_of_fetch_op ((fetch_of_event hh).trans (by simp only [atPorts, answered, hreq, and_self, if_true]))

theorem step_of_answer_elsewhere {s : State} {es : List HostEvent} {row col : Word} {cur : Pixel}
    (hh : s.host = .answer row col cur :: es) (hp : s.phase = .pixels) (hpos : ¬ (row = s.row ∧ col = s.col)) :
    step s = .refused .wrongPosition := by
  have hreq : pixelRequest (setHost es s) = some (s.row, s.col) := pixelRequest_of_pixels hp
  exact step_of_fetch_refused ((fetch_of_event hh).trans (by simp only [atPorts, answered, hreq, if_neg hpos]))

theorem step_of_take {s : State} {es : List HostEvent} (hh : s.host = .take :: es) (hp : s.phase = .done) :
    step s = .next (setHost es s) := by
  have hdone : doneOutput (setHost es s) = true := decide_eq_true hp
  exact step_of_fetch_op ((fetch_of_event hh).trans (if_pos hdone))

theorem step_of_take_early {s : State} {es : List HostEvent} (hh : s.host = .take :: es) (hp : s.phase ≠ .done) :
    step s = .refused .resultNotReady := by
  have hdone : ¬ doneOutput (setHost es s) = true := fun h => hp (of_decide_eq_true h)
  exact step_of_fetch_refused ((fetch_of_event hh).trans (if_neg hdone))

theorem step_of_wait {s : State} {es : List HostEvent} (hh : s.host = .wait :: es) :
    step s = .next (setHost es s) := step_of_fetch_op (fetch_of_event hh)

theorem step_of_start {s : State} {es : List HostEvent} {w h : Word} {c : Byte} (hh : s.host = .start w h c :: es) :
    step s = exec (.encStart w h c) (setHost es s) := step_of_fetch_op (fetch_of_event hh)

theorem step_of_word {s : State} {es : List HostEvent} {sp : Space} {bs rest : List Byte} {i : Instr}
    (hh : s.host = .word sp bs :: es) (hd : decode sp bs = .ok (i, rest)) : step s = exec i (setHost es s) :=
  step_of_fetch_op ((fetch_of_event hh).trans (by simp only [atPorts, decoded, hd]))

/-- Outside PIXELS the event "go" lets nothing happen (R73). -/
theorem step_of_go {s : State} {es : List HostEvent} (hh : s.host = .go :: es) (hp : s.phase ≠ .pixels) :
    step s = .next (setHost es s) := by
  obtain ⟨-, hseq⟩ | ⟨hpix, -⟩ | ⟨hpix, -⟩ := sequencer_cases (setHost es s)
  · exact step_of_fetch_op ((fetch_of_event hh).trans hseq)
  · exact absurd hpix hp
  · exact absurd hpix hp

/-- In DONE a step at the hardware's ports that is no start and no reset only reads its event. -/
theorem step_done_inv {s t : State} (hports : Safety.portsOnly s) (hp : s.phase = .done)
    (hstart : ∀ w h c es, s.host ≠ .start w h c :: es) (hrst : ∀ es, s.host ≠ .rst :: es) (hx : step s = .next t) :
    ∃ es, t = setHost es s := by
  have hne : s.phase ≠ .pixels := by rw [hp]; decide
  cases hh : s.host with
  | nil =>
    rw [step_of_no_event hne hh] at hx
    cases hx
    exact ⟨[], by rw [← hh]; rfl⟩
  | cons e es =>
    cases e with
    | rst => exact absurd hh (hrst es)
    | start w h c => exact absurd hh (hstart w h c es)
    | answer row col cur => rw [step_of_answer_not_requested hh hne] at hx; cases hx
    | take => rw [step_of_take hh hp] at hx; cases hx; exact ⟨es, rfl⟩
    | wait => rw [step_of_wait hh] at hx; cases hx; exact ⟨es, rfl⟩
    | go => rw [step_of_go hh hne] at hx; cases hx; exact ⟨es, rfl⟩
    | word sp bs => exact absurd (hports _ (hh ▸ List.mem_cons_self)) (by simp [Safety.isPortEvent])

/-! ### The state an operation runs on: only the event is gone -/

theorem fetch_cases (s : State) : ∃ es, fetch s = .reset (setHost es s) ∨ (∃ i, fetch s = .op i (setHost es s)) ∨
    (∃ f, fetch s = .fault f) ∨ ∃ q, fetch s = .refused q := by
  cases hh : s.host with
  | nil =>
    have hs : setHost [] s = s := by rw [← hh]; rfl
    refine ⟨[], ?_⟩
    rw [fetch_of_no_event hh, hs]
    obtain ⟨-, h⟩ | ⟨-, -, cur, -, h⟩ | ⟨-, f, h⟩ := sequencer_cases s
    · exact .inr (.inl ⟨_, h⟩)
    · exact .inr (.inl ⟨_, h⟩)
    · exact .inr (.inr (.inl ⟨f, h⟩))
  | cons e es =>
    refine ⟨es, ?_⟩
    rw [fetch_of_event hh]
    obtain h | ⟨i, h, -⟩ | h | h := atPorts_cases e (setHost es s)
    · exact .inl h
    · exact .inr (.inl ⟨i, h⟩)
    · exact .inr (.inr (.inl h))
    · exact .inr (.inr (.inr h))

/-- No step writes the Pixel Source (R30, R43). -/
theorem step_src {s t : State} (hx : step s = .next t) : t.src = s.src := by
  obtain ⟨es, h | ⟨i, h⟩ | ⟨f, h⟩ | ⟨q, h⟩⟩ := fetch_cases s <;> simp only [step, h] at hx
  · cases hx
    rfl
  · obtain ⟨hsrc, -, -⟩ := exec_held hx
    exact hsrc
  · cases hx
  · cases hx

/-- The phase in which a table word is placed is changed for three of the operations only (log entry 4). -/
theorem phaseToIssue_some (i : Instr) (ph : Phase) : phaseToIssue (some i) ph = ph ∨ (∃ cur, i = .pixStep cur) ∨
    i = .encEnd ∨ ∃ a b c, i = .encStart a b c := by
  cases i with
  | pixStep cur => exact .inr (.inl ⟨cur, rfl⟩)
  | encEnd => exact .inr (.inr (.inl rfl))
  | encStart w h c => exact .inr (.inr (.inr ⟨w, h, c, rfl⟩))
  | header | rgb | rgba | index | diff | luma | run | nop | rep => exact .inl rfl

theorem decode_of_decodeTableWord {nbits w : Nat} {i : Instr} (h : decodeTableWord nbits w = some i) :
    ∃ rest, decode (tableSpace nbits w) (tableBytes nbits w) = .ok (i, rest) := by
  unfold decodeTableWord at h
  split at h
  · next rest hd =>
    cases h
    exact ⟨rest, hd⟩
  · cases h

end Sys2Proof.Machine

open Sys2Proof Sys2Proof.Machine

/-- Settles O39: the two events, each read off the list. -/
theorem stepRunsTheInstruction : Obligations.StepRunsTheInstruction :=
  ⟨fun _ _ _ _ _ _ => step_of_word, fun _ _ _ _ _ => step_of_start⟩

/-- Settles O40: the placed bytes decode to the word's instruction. -/
theorem placedWordIsRun : Obligations.PlacedWordIsRun := by
  intro s nbits w i h
  obtain ⟨rest, hd⟩ := decode_of_decodeTableWord h
  refine ⟨phaseToIssue (some i) s.phase, ?_, phaseToIssue_some i s.phase⟩
  rw [State.withFetchWord, placeTableWord, h]
  exact step_of_word rfl hd

/-- Settles O51: the operation of the step holds the source, and so do reading an event and a reset. -/
theorem stepKeepsMemory : Obligations.StepKeepsMemory := by
  intro s t hx
  rw [step_src hx]
  exact ⟨rfl, id, fun _ => rfl⟩

/-- Settles O41: event by event. -/
theorem portEvents : Obligations.PortEvents := by
  refine fun s es => ⟨fun row col cur hh => ⟨step_of_answer_not_requested hh, fun hp hpos => ?_,
    step_of_answer_elsewhere hh⟩, fun hh => ⟨fun hp => ⟨result_of_done hp, step_of_take hh hp⟩,
    fun hp => ⟨result_of_ne_done hp, step_of_take_early hh hp⟩⟩, step_of_wait⟩
  obtain ⟨rfl, rfl⟩ := hpos
  exact step_of_answer_requested hh hp

/-- Settles O43: by computation; no `word` is pending and IDLE asks for nothing else. -/
theorem resetState : Obligations.ResetState :=
  ⟨rfl, rfl, rfl, Memory.reset_wf, reset_portsOnly, fun _ => rfl, fun h => absurd rfl h⟩

/-- Settles O44: the step only reads its event. -/
theorem doneKeepsResult : Obligations.DoneKeepsResult := by
  intro s t hports hp hstart hrst hx
  obtain ⟨es, rfl⟩ := step_done_inv hports hp hstart hrst hx
  exact ⟨hp, rfl, rfl, decide_eq_true hp⟩

end

section
/-! The invariants of the machine, kept by every step of a run of the hardware (spec/10_state.md R17 to R21,
spec/30_encoding.md R57, spec/43_serializer_output.md R126). -/

namespace Sys2Proof.Machine

open Safety (EncodeInv headerOf position gridSize positionInGrid)

/-! ### The fields after ENC_START (R71, R151) -/

@[simp] theorem startOp_prev (w h : Word) (c : Byte) (s : State) : (startOp w h c s).prev = Config.initPrev := by
  rw [startOp_eq]

@[simp] theorem startOp_run (w h : Word) (c : Byte) (s : State) : (startOp w h c s).run = 0 := by rw [startOp_eq]

@[simp] theorem startOp_out (w h : Word) (c : Byte) (s : State) :
    (startOp w h c s).out = encode (.header w h c) := by rw [startOp_eq]

@[simp] theorem startOp_width (w h : Word) (c : Byte) (s : State) : (startOp w h c s).width = w := by rw [startOp_eq]

@[simp] theorem startOp_height (w h : Word) (c : Byte) (s : State) : (startOp w h c s).height = h := by rw [startOp_eq]

@[simp] theorem startOp_host (w h : Word) (c : Byte) (s : State) : (startOp w h c s).host = s.host := by rw [startOp_eq]

@[simp] theorem startOp_src (w h : Word) (c : Byte) (s : State) : (startOp w h c s).src = s.src := by rw [startOp_eq]

theorem startOp_phase (w h : Word) (c : Byte) (s : State) :
    (startOp w h c s).phase = if w = 0 ∨ h = 0 then .done else .pixels := by rw [startOp_eq]

theorem headerOf_startOp (w h : Word) (c : Byte) (s : State) :
    headerOf (startOp w h c s) = encode (.header w h c) := by rw [startOp_eq]; rfl

theorem cacheRead_startOp (w h : Word) (c : Byte) (s : State) (i : BitVec 6) :
    cacheRead (startOp w h c s) i = Config.initSlot := by
  rw [startOp_eq]
  simp [cacheRead]

theorem position_startOp (w h : Word) (c : Byte) (s : State) : position (startOp w h c s) = 0 := by
  rw [startOp_eq]
  simp [position]

theorem gridSize_startOp (w h : Word) (c : Byte) (s : State) :
    gridSize (startOp w h c s) = w.toNat * h.toNat := by simp [gridSize]

/-- An encode of a grid with pixels starts at its first position (R71). -/
theorem positionInGrid_startOp {w h : Word} {c : Byte} {s : State} (hp : (startOp w h c s).phase = .pixels) :
    positionInGrid (startOp w h c s) := by
  have hne : ¬ (w = 0 ∨ h = 0) := fun he => by
    rw [startOp_phase, if_pos he] at hp
    cases hp
  obtain ⟨hw, hh⟩ := not_or.1 hne
  have pos : ∀ {x : Word}, x ≠ 0 → 0 < x.toNat := fun hx =>
    Nat.pos_of_ne_zero fun e => hx (BitVec.eq_of_toNat_eq e)
  rw [startOp_eq]
  exact ⟨pos hh, pos hw⟩

/-! ### Leaving IDLE -/

theorem startOp_phase_ne_idle (w h : Word) (c : Byte) (s : State) : (startOp w h c s).phase ≠ .idle := by
  rw [startOp_phase]
  split <;> nofun

theorem pixStep_phase_ne_idle {s : State} (cur : Pixel) (hp : s.phase = .pixels) :
    (advance (pixelOp cur s)).phase ≠ .idle := by
  obtain ⟨-, e⟩ | ⟨-, -, e⟩ | ⟨-, -, e⟩ := advance_cases (pixelOp cur s) <;> rw [e]
  · rw [setPosition_phase, pixelOp_phase, hp]; nofun
  · rw [setPosition_phase, pixelOp_phase, hp]; nofun
  · rw [endOp_phase]; nofun

/-! ### The header stays in front -/

@[simp] theorem headerOf_pixelOp (cur : Pixel) (s : State) : headerOf (pixelOp cur s) = headerOf s := by
  simp [headerOf]

@[simp] theorem headerOf_advance (s : State) : headerOf (advance s) = headerOf s := by simp [headerOf]

/-- Bytes behind the header do not move it. -/
theorem take_header_of_prefix {bs cs : List Byte} {s : State} (h : bs.take 14 = headerOf s) (hp : bs <+: cs) :
    cs.take 14 = headerOf s := by
  obtain ⟨ds, rfl⟩ := hp
  have hlen : 14 ≤ bs.length := by
    have := congrArg List.length h
    rw [List.length_take, headerOf_length] at this
    omega
  rw [List.take_append_of_le_length hlen, h]

/-! ### The invariant of an encode (R17, R21, R74) -/

theorem run_le_pixelOp {s : State} (cur : Pixel) (h : s.run.toNat ≤ 62) : (pixelOp cur s).run.toNat ≤ 62 := by
  by_cases hc : cur = s.prev
  · exact (pixelOp_repeat_run hc h).2
  · rw [pixelOp_run, if_neg hc]
    exact Nat.zero_le _

theorem encodeInv_startOp (w h : Word) (c : Byte) (s : State) : EncodeInv (startOp w h c s) where
  run_le := by simp
  slots i := .inl (cacheRead_startOp w h c s i)
  prev_cached := .inr ⟨startOp_prev w h c s, cacheRead_startOp w h c s⟩
  header := by
    rw [headerOf_startOp, startOp_out]
    rfl
  in_grid := positionInGrid_startOp
  flushed _ := startOp_run w h c s

/-- PIX_STEP's operation keeps the invariant (R21). -/
theorem encodeInv_pixelOp {s : State} (cur : Pixel) (h : EncodeInv s) (hp : s.phase = .pixels) :
    EncodeInv (pixelOp cur s) where
  run_le := run_le_pixelOp cur h.run_le
  slots i := by
    rw [pixelOp_cacheRead]
    split_ifs with hc hi
    · exact h.slots i
    · exact .inr hi.symm
    · exact h.slots i
  prev_cached := by
    simp only [pixelOp_prev, pixelOp_cacheRead]
    split_ifs with hc
    · rw [hc]
      exact h.prev_cached
    · exact .inl rfl
  header := by
    rw [headerOf_pixelOp]
    exact take_header_of_prefix h.header (out_prefix_pixelOp cur s)
  in_grid _ := positionInGrid_pixelOp cur (h.in_grid hp)
  flushed hd := by
    rw [pixelOp_phase, hp] at hd
    cases hd

/-- The advance keeps the invariant, to the next position and to the end alike (R73, R74). -/
theorem encodeInv_advance {s : State} (h : EncodeInv s) (hp : s.phase = .pixels) : EncodeInv (advance s) := by
  have header : (advance s).out.take 14 = headerOf (advance s) := by
    rw [headerOf_advance]
    exact take_header_of_prefix h.header (out_prefix_advance s)
  have slots : ∀ i, cacheRead (advance s) i = Config.initSlot ∨ pixelHash (cacheRead (advance s) i) = i := fun i => by
    rw [cacheRead_advance]
    exact h.slots i
  have prev_cached : cacheRead (advance s) (pixelHash (advance s).prev) = (advance s).prev ∨
      ((advance s).prev = Config.initPrev ∧ ∀ i, cacheRead (advance s) i = Config.initSlot) := by
    simp only [advance_prev, cacheRead_advance]
    exact h.prev_cached
  obtain ⟨-, hph, hrun, -, hin, -⟩ | ⟨-, e⟩ := advance_cases_inGrid (h.in_grid hp)
  · refine ⟨hrun ▸ h.run_le, slots, prev_cached, header, fun _ => hin, fun hd => ?_⟩
    rw [hph, hp] at hd
    cases hd
  · have hrun : (advance s).run = 0 := by rw [e, endOp_eq]
    refine ⟨by rw [hrun]; decide, slots, prev_cached, header, fun hpix => ?_, fun _ => hrun⟩
    rw [e, endOp_phase] at hpix
    cases hpix

theorem encodeInv_setHost {s : State} (es : List HostEvent) (h : EncodeInv s) : EncodeInv (setHost es s) :=
  ⟨h.run_le, h.slots, h.prev_cached, h.header, h.in_grid, h.flushed⟩

theorem encodeInv_pixStep {s : State} (cur : Pixel) (h : EncodeInv s) (hp : s.phase = .pixels) :
    EncodeInv (advance (pixelOp cur s)) :=
  encodeInv_advance (encodeInv_pixelOp cur h hp) ((pixelOp_phase cur s).trans hp)

end Sys2Proof.Machine

open Sys2Proof Sys2Proof.Machine

/-- Settles O48: reset, ENC_START, PIX_STEP and a step that only reads its event. -/
theorem stepKeepsInvariant : Obligations.StepKeepsInvariant := by
  intro s t hs hx
  obtain ⟨es, hes, rfl | ⟨w, h, c, -, rfl⟩ | ⟨hp, cur, rfl⟩ | rfl⟩ := step_inv hs.ports hx
  · exact ⟨hes, fun _ => rfl, fun hi => absurd rfl hi⟩
  · refine ⟨?_, fun hi => absurd hi (startOp_phase_ne_idle w h c _), fun _ => encodeInv_startOp w h c _⟩
    rw [Safety.portsOnly, startOp_host]
    exact hes
  · have hinv := encodeInv_setHost es (hs.encode (by rw [hp]; decide))
    refine ⟨?_, fun hi => absurd hi (pixStep_phase_ne_idle cur hp), fun _ => encodeInv_pixStep cur hinv hp⟩
    rw [Safety.portsOnly, advance_host, pixelOp_host]
    exact hes
  · exact ⟨hes, hs.idle, fun hi => encodeInv_setHost es (hs.encode hi)⟩

end

section
/-! What the chunks of `out` stand for and how they follow each other, kept by every step (spec/10_state.md R19,
spec/30_encoding.md R57, spec/43_serializer_output.md R126). -/

namespace Sys2Proof.Machine

open Safety (EncodeInv headerOf chunksOk accounted chunksApart mayFollow notSameIndex isRun isShortRun position
  gridSize positionInGrid)

/-! ### The body: `out` is the header and a list of chunks -/

/-- After the header `out` is the chunks `cs`, each of which exists. -/
structure Body (cs : List Instr) (s : State) : Prop where
  ok : chunksOk cs
  out : s.out = headerOf s ++ cs.flatMap encode

theorem Body.append {cs ds : List Instr} {s t : State} (h : Body cs s) (hd : chunksOk ds)
    (hheader : headerOf t = headerOf s) (hout : t.out = s.out ++ ds.flatMap encode) : Body (cs ++ ds) t where
  ok := List.forall_mem_append.2 ⟨h.ok, hd⟩
  out := by rw [hout, h.out, hheader, List.flatMap_append, List.append_assoc]

theorem body_startOp (w h : Word) (c : Byte) (s : State) : Body [] (startOp w h c s) where
  ok := by simp [chunksOk]
  out := by rw [startOp_out, headerOf_startOp, List.flatMap_nil, List.append_nil]

theorem Body.after_pixelOp {cs : List Instr} {s : State} (h : Body cs s) (cur : Pixel) (hr : s.run.toNat ≤ 62) :
    Body (cs ++ stepChunks cur s) (pixelOp cur s) :=
  h.append (stepChunks_ok cur hr) (headerOf_pixelOp cur s) (pixelOp_out cur s)

theorem Body.after_endOp {cs : List Instr} {s : State} (h : Body cs s) (hr : s.run.toNat ≤ 62) :
    Body (cs ++ flushedChunks s.run) (endOp s) :=
  h.append (flushedChunks_ok hr) (by simp [headerOf]) (by rw [flushedChunks_bytes, endOp_eq_runBytes])

/-- An advance to the next position leaves the body alone. -/
theorem Body.after_advance {cs : List Instr} {s : State} (h : Body cs s) (hout : (advance s).out = s.out) :
    Body cs (advance s) where
  ok := h.ok
  out := by rw [hout, headerOf_advance, h.out]

/-! ### The account of pixels (R19, R126 (e)) -/

theorem consumed_of_pixels {s : State} (h : s.phase = .pixels) : Safety.consumed s = position s := by
  simp only [Safety.consumed, h]

theorem consumed_of_done {s : State} (h : s.phase = .done) : Safety.consumed s = gridSize s := by
  simp only [Safety.consumed, h]

theorem accounted_startOp (w h : Word) (c : Byte) (s : State) : accounted (startOp w h c s) := by
  have hbody := body_startOp w h c s
  refine ⟨[], hbody.ok, hbody.out, ?_⟩
  have hphase := startOp_phase w h c s
  by_cases he : w = 0 ∨ h = 0
  · rw [if_pos he] at hphase
    have hempty : w.toNat * h.toNat = 0 := by obtain rfl | rfl := he <;> simp
    rw [consumed_of_done hphase, gridSize_startOp, hempty, startOp_run]
    rfl
  · rw [if_neg he] at hphase
    rw [consumed_of_pixels hphase, position_startOp, startOp_run]
    rfl

/-- A PIX_STEP accounts for one pixel more, and the last one for those still in the counter too. -/
theorem accounted_pixStep {s : State} (cur : Pixel) (hp : s.phase = .pixels) (hinv : EncodeInv s) (h : accounted s) :
    accounted (advance (pixelOp cur s)) := by
  obtain ⟨cs, hok, hout, hsum⟩ := h
  have hbody := Body.after_pixelOp ⟨hok, hout⟩ cur hinv.run_le
  have hpixels : ((cs ++ stepChunks cur s).map Instr.pixels).sum + (pixelOp cur s).run.toNat = position s + 1 := by
    have step := stepChunks_pixels cur hinv.run_le
    have before : (cs.map Instr.pixels).sum + s.run.toNat = position s := consumed_of_pixels hp ▸ hsum
    rw [List.map_append, List.sum_append]
    omega
  obtain ⟨-, hph, hrun, hout', -, hpos⟩ | ⟨hlast, e⟩ :=
    advance_cases_inGrid (positionInGrid_pixelOp cur (hinv.in_grid hp))
  · have hbody := hbody.after_advance hout'
    refine ⟨_, hbody.ok, hbody.out, ?_⟩
    rw [hrun, hpixels, consumed_of_pixels (by rw [hph, pixelOp_phase, hp]), hpos, position_pixelOp]
  · have hbody := hbody.after_endOp (run_le_pixelOp cur hinv.run_le)
    rw [e]
    refine ⟨_, hbody.ok, hbody.out, ?_⟩
    have hgrid : gridSize (endOp (pixelOp cur s)) = gridSize (pixelOp cur s) := by simp [gridSize]
    have hrun : (endOp (pixelOp cur s)).run = 0 := by rw [endOp_eq]
    rw [List.map_append, List.sum_append, flushedChunks_pixels, hpixels, consumed_of_done (endOp_phase _), hgrid,
      ← hlast, position_pixelOp, hrun]
    rfl

/-! ### RUNs full and INDEX chunks apart (R57 (f), (g)) -/

/-- The chunks that are no RUN. -/
def coded (cs : List Instr) : List Instr := cs.filter fun c => !isRun c

theorem coded_append_flushedChunks (cs : List Instr) (r : BitVec 6) : coded (cs ++ flushedChunks r) = coded cs := by
  have hnone : coded (flushedChunks r) = [] := by
    unfold flushedChunks
    split <;> rfl
  rw [coded, List.filter_append]
  exact (congrArg (coded cs ++ ·) hnone).trans (List.append_nil _)

theorem coded_append_singleton (cs : List Instr) {c : Instr} (hc : isRun c = false) :
    coded (cs ++ [c]) = coded cs ++ [c] := by
  simp [coded, hc]

/-- What `chunksApart` says of the chunks `cs` of `out`: R57 (f) and (g), and what the next chunk meets. -/
structure Apart (cs : List Instr) (s : State) : Prop where
  runs : List.IsChain mayFollow cs
  indexes : List.IsChain notSameIndex (coded cs)
  lastRun : s.phase = .pixels → ∀ c, cs.getLast? = some c → isShortRun c = false
  lastIndex : ∀ idx, (coded cs).getLast? = some (.index idx) → cacheRead s idx = s.prev

theorem chunksApart_iff (s : State) : chunksApart s ↔ ∃ cs, Body cs s ∧ Apart cs s where
  mp := fun ⟨cs, ok, out, runs, indexes, lastRun, lastIndex⟩ => ⟨cs, ⟨ok, out⟩, ⟨runs, indexes, lastRun, lastIndex⟩⟩
  mpr := fun ⟨cs, ⟨ok, out⟩, ⟨runs, indexes, lastRun, lastIndex⟩⟩ => ⟨cs, ok, out, runs, indexes, lastRun, lastIndex⟩

/-- A flushed RUN may follow, where no RUN of less than 62 stands last; if the encode goes on it is a full one. -/
theorem Apart.append_flushedChunks {cs : List Instr} {s t : State} (h : Apart cs s) (hp : s.phase = .pixels)
    {r : BitVec 6} (hfull : t.phase = .pixels → r = 62)
    (hkeep : ∀ idx, cacheRead s idx = s.prev → cacheRead t idx = t.prev) : Apart (cs ++ flushedChunks r) t where
  runs := by
    have hflushed : List.IsChain mayFollow (flushedChunks r) := by
      unfold flushedChunks
      split <;> simp
    refine h.runs.append hflushed fun x hx y _ hxy => ?_
    obtain ⟨hshort, -⟩ := hxy
    rw [h.lastRun hp x hx] at hshort
    cases hshort
  indexes := by
    rw [coded_append_flushedChunks]
    exact h.indexes
  lastRun ht := by
    obtain rfl := hfull ht
    have hrun : flushedChunks 62 = [.run 61] := rfl
    rw [hrun, List.getLast?_concat]
    rintro _ ⟨⟩
    rfl
  lastIndex idx e := by
    rw [coded_append_flushedChunks] at e
    exact hkeep idx (h.lastIndex idx e)

theorem isShortRun_of_not_isRun {c : Instr} (h : isRun c = false) : isShortRun c = false := by
  cases c with
  | run => cases h
  | header | rgb | rgba | index | diff | luma | encStart | pixStep | encEnd | nop | rep => rfl

/-- The flushed RUN and the chunk of a pixel may follow: the chunk is no RUN, and an INDEX only for a pixel that is not
`prev`, which the slot of an INDEX standing last holds. -/
theorem Apart.append_stepChunks {cs : List Instr} {s : State} {cur : Pixel} (h : Apart cs s) (hp : s.phase = .pixels)
    (hc : cur ≠ s.prev) : Apart (cs ++ stepChunks cur s) (pixelOp cur s) := by
  have hrun := selectChunk_isRun s.prev (cacheRead s (pixelHash cur)) cur
  have hcoded : coded (cs ++ stepChunks cur s) =
      coded cs ++ [selectChunk s.prev (cacheRead s (pixelHash cur)) cur] := by
    rw [stepChunks_other hc, ← List.append_assoc, coded_append_singleton _ hrun, coded_append_flushedChunks]
  have hflushed : Apart (cs ++ flushedChunks s.run) (setPhase .done s) :=
    h.append_flushedChunks hp nofun fun _ => id
  refine ⟨?_, ?_, fun _ => ?_, ?_⟩
  · rw [stepChunks_other hc, ← List.append_assoc]
    refine hflushed.runs.append (List.isChain_singleton _) fun x _ y hy hxy => ?_
    obtain ⟨-, hyrun⟩ := hxy
    cases hy
    rw [hrun] at hyrun
    cases hyrun
  · rw [hcoded]
    refine h.indexes.append (List.isChain_singleton _) fun x hx y hy idx hxy => ?_
    obtain ⟨rfl, rfl⟩ := hxy
    obtain ⟨hslot, rfl⟩ := selectChunk_eq_index (Option.some.inj hy)
    exact hc (hslot.symm.trans (h.lastIndex _ hx))
  · rw [stepChunks_other hc, ← List.append_assoc, List.getLast?_concat]
    rintro _ ⟨⟩
    exact isShortRun_of_not_isRun hrun
  · rw [hcoded, List.getLast?_concat]
    intro idx e
    obtain ⟨-, rfl⟩ := selectChunk_eq_index (Option.some.inj e)
    rw [pixelOp_cacheRead, if_neg hc, if_pos rfl, pixelOp_prev]

theorem chunksApart_startOp (w h : Word) (c : Byte) (s : State) : chunksApart (startOp w h c s) :=
  (chunksApart_iff _).2 ⟨[], body_startOp w h c s, by simp, by simp [coded], by simp, by simp [coded]⟩

theorem chunksApart_pixelOp {s : State} (cur : Pixel) (hp : s.phase = .pixels) (hr : s.run.toNat ≤ 62)
    (h : chunksApart s) : chunksApart (pixelOp cur s) := by
  obtain ⟨cs, hbody, hapart⟩ := (chunksApart_iff s).1 h
  refine (chunksApart_iff _).2 ⟨_, hbody.after_pixelOp cur hr, ?_⟩
  by_cases hc : cur = s.prev
  · have hkeep : ∀ idx, cacheRead s idx = s.prev → cacheRead (pixelOp cur s) idx = (pixelOp cur s).prev :=
      fun idx e => by rw [pixelOp_cacheRead, if_pos hc, pixelOp_prev, e, hc]
    by_cases hr62 : s.run = 62
    · rw [stepChunks_at_cap hc hr62]
      exact hapart.append_flushedChunks hp (fun _ => hr62) hkeep
    · rw [stepChunks_below_cap hc hr62, List.append_nil]
      exact ⟨hapart.runs, hapart.indexes, fun _ => hapart.lastRun hp, fun idx e => hkeep idx (hapart.lastIndex idx e)⟩
  · exact hapart.append_stepChunks hp hc

theorem chunksApart_advance {s : State} (hp : s.phase = .pixels) (hg : positionInGrid s) (hr : s.run.toNat ≤ 62)
    (h : chunksApart s) : chunksApart (advance s) := by
  obtain ⟨cs, hbody, hapart⟩ := (chunksApart_iff s).1 h
  have hkeep : ∀ idx, cacheRead s idx = s.prev → cacheRead (advance s) idx = (advance s).prev :=
    fun idx e => by rw [cacheRead_advance, advance_prev, e]
  obtain ⟨-, -, -, hout, -, -⟩ | ⟨-, e⟩ := advance_cases_inGrid hg
  · exact (chunksApart_iff _).2 ⟨cs, hbody.after_advance hout, hapart.runs, hapart.indexes, fun _ => hapart.lastRun hp,
      fun idx e => hkeep idx (hapart.lastIndex idx e)⟩
  · rw [e] at hkeep ⊢
    exact (chunksApart_iff _).2 ⟨_, hbody.after_endOp hr, hapart.append_flushedChunks hp nofun hkeep⟩

theorem chunksApart_pixStep {s : State} (cur : Pixel) (hp : s.phase = .pixels) (hinv : EncodeInv s)
    (h : chunksApart s) : chunksApart (advance (pixelOp cur s)) :=
  chunksApart_advance ((pixelOp_phase cur s).trans hp) (positionInGrid_pixelOp cur (hinv.in_grid hp))
    (run_le_pixelOp cur hinv.run_le) (chunksApart_pixelOp cur hp hinv.run_le h)

end Sys2Proof.Machine

open Sys2Proof Sys2Proof.Machine

/-- Settles O49: ENC_START, PIX_STEP and a step that only reads its event. -/
theorem stepKeepsAccount : Obligations.StepKeepsAccount := by
  intro s t hs ha hx hidle
  obtain ⟨es, -, rfl | ⟨w, h, c, -, rfl⟩ | ⟨hp, cur, rfl⟩ | rfl⟩ := step_inv hs.ports hx
  · exact absurd rfl hidle
  · exact accounted_startOp w h c _
  · have hne : s.phase ≠ .idle := by rw [hp]; decide
    exact accounted_pixStep cur hp (encodeInv_setHost es (hs.encode hne)) (ha hne)
  · exact ha hidle

/-- Settles O50: ENC_START, PIX_STEP and a step that only reads its event. -/
theorem stepKeepsChunksApart : Obligations.StepKeepsChunksApart := by
  intro s t hs ha hx hidle
  obtain ⟨es, -, rfl | ⟨w, h, c, -, rfl⟩ | ⟨hp, cur, rfl⟩ | rfl⟩ := step_inv hs.ports hx
  · exact absurd rfl hidle
  · exact chunksApart_startOp w h c _
  · have hne : s.phase ≠ .idle := by rw [hp]; decide
    exact chunksApart_pixStep cur hp (encodeInv_setHost es (hs.encode hne)) (ha hne)
  · exact ha hidle

end

section
/-! A whole run in PIXELS, and a whole encode (spec/40_session_ops.md R70 to R73, spec/70_reset_and_hazards.md). -/

namespace Sys2Proof.Machine

open Safety (EncodeInv position gridSize positionInGrid)

/-! ### Row-major order (R70) -/

/-- The pixel at a row-major position of a grid of the given width. -/
def pixelAtPosition (width : Nat) (px : Nat → Nat → Pixel) (p : Nat) : Pixel := px (p / width) (p % width)

theorem pixelAtPosition_row_col {width col : Nat} (px : Nat → Nat → Pixel) (row : Nat) (h : col < width) :
    pixelAtPosition width px (row * width + col) = px row col := by
  have hpos : 0 < width := Nat.zero_lt_of_lt h
  rw [pixelAtPosition, Nat.mul_comm, Nat.mul_add_div hpos, Nat.div_eq_of_lt h, Nat.add_zero, Nat.mul_add_mod,
    Nat.mod_eq_of_lt h]

theorem rowMajor_eq (width height : Nat) (px : Nat → Nat → Pixel) : Ref.rowMajor width height px =
    (List.range (width * height)).map (pixelAtPosition width px) := by
  induction height with
  | zero => rfl
  | succ height ih =>
    have row : (List.range width).map (fun col => px height col) =
        (List.range width).map fun col => pixelAtPosition width px (width * height + col) :=
      List.map_congr_left fun col hcol => by
        rw [Nat.mul_comm, pixelAtPosition_row_col px height (List.mem_range.1 hcol)]
    have before : Ref.rowMajor width (height + 1) px =
        Ref.rowMajor width height px ++ (List.range width).map fun col => px height col := by
      simp only [Ref.rowMajor, List.range_succ, List.flatMap_append, List.flatMap_singleton]
    rw [before, ih, row, Nat.mul_succ, List.range_add, List.map_append, List.map_map]
    rfl

/-! ### The algorithm state under the operations of the sequencer -/

theorem of_advance {s : State} (hrun : (advance s).run = s.run) (hout : (advance s).out = s.out) :
    Ref.of (advance s) = Ref.of s := by
  simp only [Ref.of, hrun, hout, advance_prev, advance_cache]

theorem of_endOp (s : State) : Ref.of (endOp s) = (Ref.of s).flush := of_deferredFlush s

theorem be32_toNat (v : Word) : (be32 v).map BitVec.toNat = Ref.be v.toNat := by
  have := v.isLt
  simp only [be32, Ref.be, List.map_cons, List.map_nil, BitVec.extractLsb'_toNat, Nat.shiftRight_eq_div_pow]
  norm_num

theorem encode_header_toNat (w h : Word) (c : Byte) : (encode (.header w h c)).map BitVec.toNat =
    [113, 111, 105, 102] ++ Ref.be w.toNat ++ Ref.be h.toNat ++ [c.toNat, 0] := by
  simp only [encode, List.map_append, be32_toNat]
  rfl

theorem of_startOp (w h : Word) (c : Byte) (s : State) :
    Ref.of (startOp w h c s) = Ref.start w.toNat h.toNat c.toNat := by
  have hslot : (Ref.of (startOp w h c s)).slot = fun _ => Config.initSlot := funext fun i =>
    cacheRead_startOp w h c s ⟨i⟩
  have hout : (Ref.of (startOp w h c s)).out =
      [113, 111, 105, 102] ++ Ref.be w.toNat ++ Ref.be h.toNat ++ [c.toNat, 0] := by
    rw [← encode_header_toNat]
    exact congrArg _ (startOp_out w h c s)
  rw [Ref.start, ← hslot, ← hout]
  simp only [Ref.of, startOp_prev, startOp_run]
  rfl

/-! ### Runs of the core -/

theorem core_run_succ {s u : State} (h : step s = .next u) (k : Nat) :
    Host.Core.run core (k + 1) s = Host.Core.run core k u := by
  have hstep : core.step s = .next u := h
  simp only [Host.Core.run, hstep]

/-- The source answers every position of the grid, with the pixels `px` (R31). -/
def SourceHolds (px : Nat → Nat → Pixel) (s : State) : Prop :=
  ∀ row col, row < s.height.toNat → col < s.width.toNat → Memory.read s.src (row, col) = some (px row col)

theorem SourceHolds.pixStep {px : Nat → Nat → Pixel} {s : State} (h : SourceHolds px s) (cur : Pixel) :
    SourceHolds px (advance (pixelOp cur s)) := by simpa [SourceHolds] using h

/-- An encode in PIXELS that only waits for its source, which holds the pixels `px` of the grid. -/
structure Running (px : Nat → Nat → Pixel) (s : State) : Prop where
  phase : s.phase = .pixels
  in_grid : positionInGrid s
  host : s.host = []
  run_le : s.run.toNat ≤ 62
  source : SourceHolds px s

/-- The pixel that a running encode steps next. -/
def nextPixel (px : Nat → Nat → Pixel) (s : State) : Pixel := pixelAtPosition s.width.toNat px (position s)

theorem Running.step_eq {px : Nat → Nat → Pixel} {s : State} (h : Running px s) :
    step s = .next (advance (pixelOp (nextPixel px s) s)) := by
  obtain ⟨hrow, hcol⟩ := h.in_grid
  have hread := h.source _ _ hrow hcol
  rw [← pixelAtPosition_row_col px s.row.toNat hcol] at hread
  exact step_of_answer h.host h.phase h.in_grid hread

/-- One step of a running encode: it goes on at the next position, or ends with nothing deferred. -/
theorem Running.next_cases {px : Nat → Nat → Pixel} {s : State} (h : Running px s) :
    let t := advance (pixelOp (nextPixel px s) s)
    (position s + 1 < gridSize s ∧ Running px t ∧ position t = position s + 1 ∧
      Ref.of t = (Ref.of s).pixel (nextPixel px s)) ∨
    (position s + 1 = gridSize s ∧ t.phase = .done ∧ t.run = 0 ∧
      Ref.of t = ((Ref.of s).pixel (nextPixel px s)).flush) := by
  intro t
  rw [← of_pixelOp _ h.run_le]
  obtain ⟨hlt, hph, hrun, hout, hin, hpos⟩ | ⟨hlast, e⟩ :=
    advance_cases_inGrid (positionInGrid_pixelOp (nextPixel px s) h.in_grid)
  · refine .inl ⟨by simpa using hlt, ⟨?_, hin, ?_, ?_, h.source.pixStep _⟩, by simpa using hpos, of_advance hrun hout⟩
    · rw [hph, pixelOp_phase, h.phase]
    · rw [advance_host, pixelOp_host, h.host]
    · rw [hrun]
      exact run_le_pixelOp _ h.run_le
  · have hrun : t.run = 0 := by simp only [t, e, endOp_eq]
    have hphase : t.phase = .done := by simp only [t, e, endOp_phase]
    exact .inr ⟨by simpa using hlast, hphase, hrun, by simp only [t, e, of_endOp]⟩

/-- Before its last pixel a running encode is still running. -/
theorem Running.run_before_end {px : Nat → Nat → Pixel} {k : Nat} {s : State} (h : Running px s)
    (hk : position s + k < gridSize s) :
    ∃ t, Host.Core.run core k s = .next t ∧ Running px t ∧ position t = position s + k := by
  induction k generalizing s with
  | zero => exact ⟨s, rfl, h, rfl⟩
  | succ k ih =>
    rw [core_run_succ h.step_eq]
    obtain ⟨-, hnext, hpos, -⟩ | ⟨hlast, -⟩ := h.next_cases
    · obtain ⟨t, hrun, hrunning, hpos'⟩ := ih hnext (by simp; omega)
      exact ⟨t, hrun, hrunning, by omega⟩
    · omega

/-- After its last pixel a running encode is done, and its algorithm state is that of the rules (R70). -/
theorem Running.run_to_end {px : Nat → Nat → Pixel} {n : Nat} {s : State} (h : Running px s)
    (hn : position s + n = gridSize s) : ∃ t, Host.Core.run core n s = .next t ∧ t.phase = .done ∧ t.run = 0 ∧
      Ref.of t = (((List.range' (position s) n).map (pixelAtPosition s.width.toNat px)).foldl Ref.pixel
        (Ref.of s)).flush := by
  induction n generalizing s with
  | zero => exact absurd (position_lt_gridSize h.in_grid) (by omega)
  | succ n ih =>
    rw [core_run_succ h.step_eq, List.range'_succ, List.map_cons, List.foldl_cons]
    obtain ⟨-, hnext, hpos, href⟩ | ⟨hlast, hdone, hrun, href⟩ := h.next_cases
    · obtain ⟨t, hrun, hdone, hrun0, ht⟩ := ih hnext (by simp; omega)
      refine ⟨t, hrun, hdone, hrun0, ?_⟩
      rw [ht, href, hpos, advance_width, pixelOp_width]
      rfl
    · obtain rfl : n = 0 := by omega
      exact ⟨_, rfl, hdone, hrun, href⟩

theorem running_startOp {w h : Word} (c : Byte) {s : State} {px : Nat → Nat → Pixel} (hne : ¬ (w = 0 ∨ h = 0))
    (hhost : s.host = [])
    (hsrc : ∀ row col, row < h.toNat → col < w.toNat → Memory.read s.src (row, col) = some (px row col)) :
    Running px (startOp w h c s) := by
  have hphase : (startOp w h c s).phase = .pixels := by rw [startOp_phase, if_neg hne]
  exact ⟨hphase, positionInGrid_startOp hphase, (startOp_host w h c s).trans hhost, by simp,
    by simpa [SourceHolds] using hsrc⟩

/-- What the source answers, with a pixel of no account where it does not. -/
def sourcePixel (s : State) (row col : Nat) : Pixel := (Memory.read s.src (row, col)).getD default

theorem running_of_encodeInv {s : State} (hinv : EncodeInv s) (hp : s.phase = .pixels) (hh : s.host = [])
    (hsrc : ∀ row col, row < s.height.toNat → col < s.width.toNat → (Memory.read s.src (row, col)).isSome = true) :
    Running (sourcePixel s) s := by
  refine ⟨hp, hinv.in_grid hp, hh, hinv.run_le, fun row col hrow hcol => ?_⟩
  obtain ⟨cur, hcur⟩ := Option.isSome_iff_exists.1 (hsrc row col hrow hcol)
  rw [sourcePixel, hcur, Option.getD_some]

/-- From ENC_START to DONE, with a pixel or without (R70, R75). -/
theorem run_startOp {w h : Word} (c : Byte) {s : State} {px : Nat → Nat → Pixel} (hhost : s.host = [])
    (hsrc : ∀ row col, row < h.toNat → col < w.toNat → Memory.read s.src (row, col) = some (px row col)) :
    ∃ t, Host.Core.run core (w.toNat * h.toNat) (startOp w h c s) = .next t ∧ t.phase = .done ∧
      (Ref.of t).out = Ref.encode w.toNat h.toNat c.toNat (Ref.rowMajor w.toNat h.toNat px) := by
  rw [Ref.encode, rowMajor_eq, ← of_startOp w h c s]
  by_cases he : w = 0 ∨ h = 0
  · have hempty : w.toNat * h.toNat = 0 := by obtain rfl | rfl := he <;> simp
    have hdone : (startOp w h c s).phase = .done := by rw [startOp_phase, if_pos he]
    rw [hempty]
    refine ⟨_, rfl, hdone, ?_⟩
    rw [List.range_zero, List.map_nil, List.foldl_nil, ← of_deferredFlush, deferredFlush_none (startOp_run w h c s)]
  · have hrunning := running_startOp c he hhost hsrc
    have hpos := position_startOp w h c s
    have hend := hrunning.run_to_end (n := w.toNat * h.toNat) (by rw [hpos, gridSize_startOp, Nat.zero_add])
    rw [hpos, startOp_width, ← List.range_eq_range'] at hend
    obtain ⟨t, hrun, hdone, -, href⟩ := hend
    exact ⟨t, hrun, hdone, by rw [href]⟩

end Sys2Proof.Machine

open Sys2Proof Sys2Proof.Machine

/-- Settles O55, by induction on the number of steps, over running encodes. -/
theorem encodeEnds : Obligations.EncodeEnds := by
  intro s hinv hp hh hsrc
  have hrunning := running_of_encodeInv (hinv.encode (by rw [hp]; decide)) hp hh hsrc
  have hlt := position_lt_gridSize hrunning.in_grid
  refine ⟨?_, fun k hk => ?_⟩
  · obtain ⟨t, hrun, hdone, hrun0, -⟩ := hrunning.run_to_end (n := Safety.gridSize s - Safety.position s) (by omega)
    exact ⟨t, hrun, hdone, hrun0⟩
  · obtain ⟨t, hrun, ht, hpos⟩ := hrunning.run_before_end (k := k) (by omega)
    exact ⟨t, hrun, ht.phase, hpos⟩

/-- Settles O56: ENC_START gives the start of the rules, each step their pixel, and the last one their flush. -/
theorem encodeIsTheReference : Obligations.EncodeIsTheReference := by
  intro s w h c px hp hh hsrc
  obtain ⟨t, hrun, hdone, hout⟩ := run_startOp (s := setHost [] s) c rfl hsrc
  have hstart : step s = .next (startOp w h c (setHost [] s)) := by
    rw [step_of_start hh]
    exact exec_encStart_of_ne_pixels w h c hp
  refine ⟨t, t.out, ?_, hdone, result_of_done hdone, hout⟩
  rw [Nat.add_comm, core_run_succ hstart, hrun]

end
